-- ==== Sys2Proof/Word.lean ====
section
/-! DEFINITION. The word types of the block: a byte of the frame buffer and a command word.

Every field and register of the block is unsigned (00_scope.md rule R13). -/

namespace Sys2Proof

/-- A byte of the frame buffer, a colour intensity or the shift register: 8 bits (R25, R50, R75). -/
abbrev Byte := BitVec 8

/-- A command word: 64 parallel wires, bit `j` on wire `j` (30_encoding.md R70, R72). -/
abbrev Word := BitVec 64

end Sys2Proof
end

