-- ==== Sys2Proof/Syntax.lean ====
section
/-! DEFINITION. The commands of the block: one constructor per row of spec/opcode_table.json
(30_encoding.md R73). -/

namespace Sys2Proof

/-- The four commands.
An index is a number that the block only compares with `N` and multiplies by 3 (R74), so it is a `Nat`
whose 16-bit range `Instr.wf` checks.
An intensity is a byte the block stores unchanged (R75). -/
inductive Instr where
  /-- NOP, OP = 0x00 (42_control.md R160). -/
  | nop
  /-- SET_COLOR, OP = 0x01: LED index, then red, green, blue in the API order (40_frame_buffer.md R101). -/
  | setColor (idx : Nat) (r g b : Byte)
  /-- CLEAR, OP = 0x02 (40_frame_buffer.md R103). -/
  | clear
  /-- SHOW, OP = 0x03 (41_protocol_encoder.md R120). -/
  | showFrame
  deriving DecidableEq, Repr

end Sys2Proof
end

