-- ==== Sys2Proof/WellFormed.lean ====
section
/-! DEFINITION. Which commands have a word: the operand ranges of format CMD. -/

namespace Sys2Proof

/-- The index of SET_COLOR fits the 16-bit IDX field (30_encoding.md R71, R74).
An index at or above the strip length `N` is well formed: it is ignored, not illegal (R102). -/
def Instr.wf : Instr → Bool
  | .nop => true
  | .setColor idx _ _ _ => decide (idx < 65536)
  | .clear => true
  | .showFrame => true

end Sys2Proof
end

