-- ==== Sys2Proof/Decode.lean ====
section
/-! DEFINITION. Decoding and encoding of command words (30_encoding.md R70 to R79).

Decoding is total on all `2^64` words; `none` is the spec's `ILLEGAL(w)` (R78). -/

namespace Sys2Proof

/-! ### The fields of format CMD (R71) -/

/-- OP, bits 63:56. -/
def opOf (w : Word) : BitVec 8 := w.extractLsb' 56 8

/-- RSV1, bits 55:48. -/
def rsv1Of (w : Word) : BitVec 8 := w.extractLsb' 48 8

/-- IDX, bits 47:32. -/
def idxOf (w : Word) : BitVec 16 := w.extractLsb' 32 16

/-- RSV0, bits 31:24. -/
def rsv0Of (w : Word) : BitVec 8 := w.extractLsb' 24 8

/-- R, bits 23:16. -/
def redOf (w : Word) : Byte := w.extractLsb' 16 8

/-- G, bits 15:8. -/
def greenOf (w : Word) : Byte := w.extractLsb' 8 8

/-- B, bits 7:0. -/
def blueOf (w : Word) : Byte := w.extractLsb' 0 8

/-- Bits 55:0, all the bits below OP. -/
def belowOp (w : Word) : BitVec 56 := w.extractLsb' 0 56

/-- `Decode` of R78, its tests in the spec's order. -/
def decode (w : Word) : Option Instr :=
  if opOf w = 0x00#8 ∧ belowOp w = 0#56 then some .nop
  else if opOf w = 0x01#8 ∧ rsv1Of w = 0#8 ∧ rsv0Of w = 0#8 then
    some (.setColor (idxOf w).toNat (redOf w) (greenOf w) (blueOf w))
  else if opOf w = 0x02#8 ∧ belowOp w = 0#56 then some .clear
  else if opOf w = 0x03#8 ∧ belowOp w = 0#56 then some .showFrame
  else none

/-- A word of format CMD with its reserved fields zero: `{OP, 0x00, IDX, 0x00, R, G, B}` (R71, R80). -/
def cmdWord (op : BitVec 8) (idx : BitVec 16) (r g b : Byte) : Word :=
  op ++ (0#8 ++ (idx ++ (0#8 ++ (r ++ (g ++ b)))))

/-- The word of a well-formed command (R71, R73, R76). -/
def encode : Instr → Word
  | .nop => cmdWord 0x00#8 0#16 0#8 0#8 0#8
  | .setColor idx r g b => cmdWord 0x01#8 (BitVec.ofNat 16 idx) r g b
  | .clear => cmdWord 0x02#8 0#16 0#8 0#8 0#8
  | .showFrame => cmdWord 0x03#8 0#16 0#8 0#8 0#8

/-! ### The match and mask table (R76) -/

/-- The `mask` of a command's row. -/
def rowMask : Instr → Word
  | .nop => 0xFFFFFFFFFFFFFFFF#64
  | .setColor _ _ _ _ => 0xFFFF0000FF000000#64
  | .clear => 0xFFFFFFFFFFFFFFFF#64
  | .showFrame => 0xFFFFFFFFFFFFFFFF#64

/-- The `match` of a command's row. -/
def rowBits : Instr → Word
  | .nop => 0x0000000000000000#64
  | .setColor _ _ _ _ => 0x0100000000000000#64
  | .clear => 0x0200000000000000#64
  | .showFrame => 0x0300000000000000#64

/-- A word matches the row of `i`: `(word AND mask) == match` (R76).
The row of a SET_COLOR does not depend on its operands. -/
def matchesRow (w : Word) (i : Instr) : Bool := w &&& rowMask i == rowBits i

/-- The command word a table number stands for: bit 0 of the number is bit 0 of the word (R72), the bits
from `nbits` up are 0, and a number that does not fit 64 bits is no command word (R70). -/
def tableWord (nbits w : Nat) : Option Word :=
  if w % 2 ^ nbits < 2 ^ 64 then some (BitVec.ofNat 64 (w % 2 ^ nbits)) else none

/-- The command the decoder reads from a table number. -/
def decodeTableWord (nbits w : Nat) : Option Instr :=
  match tableWord nbits w with
  | some word => decode word
  | none => none

end Sys2Proof
end

