-- ==== Sys2Proof/Config.lean ====
section
/-! DEFINITION. The build-time parameters of the block (00_scope.md R5 to R12), the widths derived
from them, and the draws of power-up. -/

namespace Sys2Proof

/-- The parameters of a build: the block's own, fixed when it is built (R5 to R10, R31), and the two open
parameters by which the integrator names the strip (R12; 93_implementation_defined.md I1). -/
structure Config where
  /-- The strip length, the number of LEDs (R5). -/
  N : Nat
  /-- The output polarity: `false` direct, `true` inverted (R6). -/
  INV : Bool
  /-- The frequency of `clk` in Hz (R7).
  DESIGN CHOICE: a whole number of Hz, 0 not excluded; the spec gives the unit alone
  (notes/assumptions/19.md). -/
  F_CLK : Nat
  /-- The bit period, in cycles (R8). -/
  T_BIT : Nat
  /-- The active cycles of a 0 bit (R9). -/
  T_H0 : Nat
  /-- The active cycles of a 1 bit (R9). -/
  T_H1 : Nat
  /-- The reset gap, in cycles (R10). -/
  T_RESET : Nat
  /-- The strip's minimum latch time in seconds (R10, R12); `none` where the build names no strip
  (DESIGN CHOICE, notes/assumptions/10.md).
  No rule of the block reads it. -/
  T_LATCH_MIN : Option Rat
  /-- The strip's pulse-width tolerance in seconds (R12); `none` where the build names no strip
  (DESIGN CHOICE, notes/assumptions/10.md).
  No rule of the block reads it. -/
  TOL : Option Rat
  deriving DecidableEq, Repr

/-- The spec's default build (R5 to R10; `INV = 0` as in 95_test_vectors.md).
The strip's two parameters are open and have no default (R12), so it names none. -/
def Config.defaults : Config where
  N := 10
  INV := false
  F_CLK := 16000000
  T_BIT := 20
  T_H0 := 6
  T_H1 := 12
  T_RESET := 800
  T_LATCH_MIN := none
  TOL := none

/-- The constraints a build must meet: `1 ≤ N ≤ 65536` (R5), `T_BIT ≥ 3` (R8),
`1 ≤ T_H0 < T_H1 < T_BIT` (R9) and `1 ≤ T_RESET` (R10).
`T_BIT < 2^TCNT_W` and `T_RESET < 2^TCNT_W` hold by the choice of `TCNT_W` (R11).
The spec states no constraint on `F_CLK`, and none is set here (DESIGN CHOICE, notes/assumptions/19.md). -/
abbrev Config.wf (c : Config) : Prop :=
  1 ≤ c.N ∧ c.N ≤ 65536 ∧ 3 ≤ c.T_BIT ∧ 1 ≤ c.T_H0 ∧ c.T_H0 < c.T_H1 ∧ c.T_H1 < c.T_BIT ∧
    1 ≤ c.T_RESET

/-- The size of the frame buffer in bytes, `3·N` (R50). -/
def Config.fbSize (c : Config) : Nat := 3 * c.N

/-- The number of bits of a frame, `24·N` (R128). -/
def Config.frameLen (c : Config) : Nat := 24 * c.N

/-- The number of SEND cycles of a frame, `24·N·T_BIT` (R132). -/
def Config.sendLen (c : Config) : Nat := 24 * c.N * c.T_BIT

/-- `D_FRAME = 24·N·T_BIT + T_RESET`, the busy cycles of a frame (R141). -/
def Config.D_FRAME (c : Config) : Nat := 24 * c.N * c.T_BIT + c.T_RESET

/-- The byte-pointer width, `max(1, ceil(log2(3·N)))` (R11). -/
def Config.PTR_W (c : Config) : Nat := max 1 (Nat.clog 2 (3 * c.N))

/-- The timing-counter width: the smallest width with `2^TCNT_W > max(T_BIT, T_RESET)` (R11). -/
def Config.TCNT_W (c : Config) : Nat := Nat.clog 2 (max c.T_BIT c.T_RESET + 1)

/-- `TH(b)`: the active cycles that open a bit period, `T_H1` for a 1 and `T_H0` for a 0 (R15, R122). -/
def Config.TH (c : Config) (b : Bool) : Nat := if b then c.T_H1 else c.T_H0

/-- A count of `n` cycles in seconds, `n / F_CLK` (R145).
At `F_CLK = 0` it is 0, Lean's quotient by 0: DESIGN CHOICE, notes/assumptions/19.md. -/
def Config.seconds (c : Config) (n : Nat) : Rat := (n : Rat) / (c.F_CLK : Rat)

/-- The integrator's choice of the gap: the build names the strip's minimum latch time, and
`T_RESET / F_CLK ≥ T_LATCH_MIN` (R10, R145).
The block does not check it (R12, R146). -/
def Config.latchMet (c : Config) : Prop :=
  ∃ latch, c.T_LATCH_MIN = some latch ∧ latch ≤ c.seconds c.T_RESET

/-- The integrator's choice of a pulse width: the build names the strip's tolerance, and a pulse of `n`
cycles lies within `TOL` on either side of the width `nominal` that the strip's datasheet names (R12).
PRESUMED: that the tolerance is symmetric (notes/assumptions/10.md).
The block does not check it (R12, R146). -/
def Config.widthMet (c : Config) (n : Nat) (nominal : Rat) : Prop :=
  ∃ tol, c.TOL = some tol ∧ nominal - tol ≤ c.seconds n ∧ c.seconds n ≤ nominal + tol

/-! ### Power-up draws

What the registers and the frame buffer hold before the first reset is unspecified: a draw, not a value
(70_reset_and_hazards.md R192, 93_implementation_defined.md I4).
Each constant below is a free value with no body; its argument numbers the power-up, and
`Config.powerUpByte` takes the byte's offset as well. -/

opaque Config.powerUpSt : Nat → BitVec 2
opaque Config.powerUpPtr : Nat → Nat
opaque Config.powerUpSh : Nat → Byte
opaque Config.powerUpBitn : Nat → BitVec 3
opaque Config.powerUpTcnt : Nat → Nat
opaque Config.powerUpIll : Nat → Bool
opaque Config.powerUpByte : Nat → Nat → Byte

end Sys2Proof
end

