-- ==== Sys2Proof/Machine/State.lean ====
section
/-! DEFINITION. The state of the block as plain data, its reset value, and the reasons a step can stop
(10_state.md). -/

namespace Sys2Proof.Machine

/-- The frame buffer as a sparse list of cells in one canonical form: offsets strictly rising, no cell
holding what an unlisted offset reads as (20_memory.md R50, R51). -/
abbrev Memory := List Host.Cell

/-- What an unlisted offset of the frame buffer reads as: the reset contents 0x00 (10_state.md R39). -/
def unlistedByte : Byte := 0x00#8

/-- The cells from offset `lo` on are canonical: rising offsets, none holding `unlistedByte`. -/
def Memory.wfFrom (lo : Nat) : Memory → Bool
  | [] => true
  | (a, v) :: m => decide (lo ≤ a) && (v != unlistedByte) && Memory.wfFrom (a + 1) m

/-- The canonical form of the frame buffer. -/
def Memory.wf (m : Memory) : Bool := Memory.wfFrom 0 m

/-- The FSM state (10_state.md R23).
The encoding 3 is omitted, as R23 allows: no rule produces it. -/
inductive Fsm where
  /-- 0: line idle, the block accepts commands. -/
  | idle
  /-- 1: the serializer is putting bits of FB on the line. -/
  | send
  /-- 2: the reset-gap timer is holding the line idle. -/
  | gap
  deriving DecidableEq, Repr

/-- The values of the input ports in one cycle (10_state.md R32, 00_scope.md R14). -/
structure Input where
  /-- `rst`, synchronous, active high. -/
  rst : Bool
  /-- `cmd_valid`: the host offers a word in this cycle. -/
  cmdValid : Bool
  /-- `cmd_data`: the offered word. -/
  cmdData : Word
  deriving DecidableEq, Repr

/-- The input ports of a cycle in which the host does nothing: no reset, no word offered. -/
def Input.quiet : Input := ⟨false, false, 0#64⟩

/-- The spec's state tuple `(FB, st, ptr, sh, bitn, tcnt, ILL)` (10_state.md R20), and two fields of the
model's own: the build `cfg`, which no step changes, and `inputs`, the port values the host drives from
the current cycle on.
`ptr` and `tcnt` are unbounded naturals, as 00_scope.md R11 allows. -/
structure State where
  /-- The frame buffer (R29, 20_memory.md R50). -/
  FB : Memory
  /-- The FSM state (R23). -/
  st : Fsm
  /-- The byte pointer (R24). -/
  ptr : Nat
  /-- The shift register (R25). -/
  sh : Byte
  /-- The bit counter (R26). -/
  bitn : BitVec 3
  /-- The timing counter shared by the bit timing generator and the reset-gap timer (R27). -/
  tcnt : Nat
  /-- The sticky illegal-command bit (R28). -/
  ILL : Bool
  /-- The build-time parameters (00_scope.md R5 to R10); configuration, not state of the spec's. -/
  cfg : Config
  /-- The values of `rst`, `cmd_valid` and `cmd_data`, this cycle's first.
  A cycle past the end of the list is `Input.quiet`. -/
  inputs : List Input
  deriving DecidableEq, Repr

/-- Why a step can stop. -/
inductive Fault where
  /-- A read of frame-buffer offset `a`, which does not exist (`a ≥ 3·N`, 20_memory.md R56).
  Raised by SHOW and by the serializer; only a build with `N = 0`, which is no build, reaches it.
  Safe: the model stops where the spec gives no behaviour. -/
  | absentOffset (a : Nat)
  deriving DecidableEq, Repr

/-- Why the model may have no meaning for a command. -/
inductive Refusal where
  /-- An arm of `exec` that has no meaning yet.
  Safe: the model stops; no arm of this model answers so. -/
  | notModelled (mnemonic : String)
  deriving DecidableEq, Repr

/-- The answer of a command or of a step. -/
abbrev Result := Host.Outcome State Fault Refusal

/-- The default build right after the edge that ends a reset cycle (10_state.md R39), the host quiet. -/
def State.reset : State where
  FB := []
  st := .gap
  ptr := 0
  sh := 0x00#8
  bitn := 7#3
  tcnt := 0
  ILL := false
  cfg := Config.defaults
  inputs := []

end Sys2Proof.Machine
end

