-- ==== Sys2Proof/Machine/Ops.lean ====
section
/-! DEFINITION. The named operations over the frame buffer and the registers, shared by the commands and
the cycle: reading and writing FB, the frame start, the exception IllegalCommand and reset. -/

namespace Sys2Proof.Machine

/-! ### The frame buffer (20_memory.md R50, R51) -/

/-- The byte at offset `a`. -/
def Memory.read : Memory → Nat → Byte
  | [], _ => unlistedByte
  | (b, v) :: m, a => if b = a then v else Memory.read m a

/-- `FB[a] <- v`, keeping the canonical form: writing `unlistedByte` removes the cell. -/
def Memory.write : Memory → Nat → Byte → Memory
  | [], a, v => if v = unlistedByte then [] else [(a, v)]
  | (b, w) :: m, a, v =>
    if a < b then (if v = unlistedByte then (b, w) :: m else (a, v) :: (b, w) :: m)
    else if a = b then (if v = unlistedByte then m else (a, v) :: m)
    else (b, w) :: Memory.write m a v

/-- Every cell lies below offset `n`. -/
def Memory.below (m : Memory) (n : Nat) : Bool := m.all fun c => decide (c.1 < n)

/-- The serializer's one access path: read `FB[a]` and go on with the byte (R15, R55).
An offset `≥ 3·N` does not exist (R56). -/
def readFB (s : State) (a : Nat) (k : Byte → Result) : Result :=
  if a < s.cfg.fbSize then k (s.FB.read a) else .fault (.absentOffset a)

/-- `FB[a] <- v` (R15). -/
def State.writeFB (s : State) (a : Nat) (v : Byte) : State := { s with FB := s.FB.write a v }

/-- Every byte of FB takes 0x00 at one edge (R55, 40_frame_buffer.md R103). -/
def State.zeroFB (s : State) : State := { s with FB := [] }

/-! ### The ports (10_state.md R32) -/

/-- The input ports in the current cycle. -/
def State.input (s : State) : Input := s.inputs.headD Input.quiet

/-- The state with the current cycle's inputs used up. -/
def State.advance (s : State) : State := { s with inputs := s.inputs.tail }

/-! ### The frame start (41_protocol_encoder.md R121) -/

/-- `StartFrame(b0)`, shared by SHOW and CLEAR. -/
def startFrame (b0 : Byte) (s : State) : State :=
  { s with st := .send, ptr := 0, sh := b0, bitn := 7#3, tcnt := 0 }

/-! ### The exception IllegalCommand (60_exceptions.md R171, R177, R178)

The block's only exception is recorded and nothing else: nothing is saved, no mode changes and no
control is transferred, so there is no return from it. -/

/-- `raise IllegalCommand(word)`: `ILL <- 1`, with no other effect (R171, 00_scope.md R15). -/
def raiseIllegalCommand (s : State) : State := { s with ILL := true }

/-! ### Reset (70_reset_and_hazards.md R190) -/

/-- `ResetState` of 10_state.md R39 for the build and the coming inputs of `s`, whatever else `s` holds. -/
def resetEdge (s : State) : State where
  FB := []
  st := .gap
  ptr := 0
  sh := 0x00#8
  bitn := 7#3
  tcnt := 0
  ILL := false
  cfg := s.cfg
  inputs := s.inputs

end Sys2Proof.Machine
end

