-- ==== Sys2Proof/Machine/Control.lean ====
section
/-! DEFINITION. The control command NOP and the accepted illegal word (42_control.md). -/

namespace Sys2Proof.Machine

/-- NOP (R160): no register changes. -/
def execNop (s : State) : Result := .next s

/-- An accepted word that is not legal (R161): it raises IllegalCommand (60_exceptions.md R171). -/
def execIllegal (s : State) : Result := .next (raiseIllegalCommand s)

end Sys2Proof.Machine
end

