-- ==== Sys2Proof/Machine/Operands.lean ====
section
/-! DEFINITION. The operand forms: the LED index and its byte offsets (30_encoding.md R74,
20_memory.md R50). -/

namespace Sys2Proof.Machine

/-- Offset of the green byte of LED `i`. -/
def greenOffset (i : Nat) : Nat := 3 * i + 0

/-- Offset of the red byte of LED `i`. -/
def redOffset (i : Nat) : Nat := 3 * i + 1

/-- Offset of the blue byte of LED `i`. -/
def blueOffset (i : Nat) : Nat := 3 * i + 2

/-- The index is in range iff `zext(IDX) < N` (R74). -/
def State.inRange (s : State) (idx : Nat) : Bool := decide (idx < s.cfg.N)

/-- LED `i` takes the colour `(r, g, b)`, stored in wire order at one edge (R50, R55, 40_frame_buffer.md
R101). -/
def State.storeLed (s : State) (i : Nat) (r g b : Byte) : State :=
  ((s.writeFB (greenOffset i) g).writeFB (redOffset i) r).writeFB (blueOffset i) b

end Sys2Proof.Machine
end

