-- ==== Sys2Proof/Machine/FrameBuffer.lean ====
section
/-! DEFINITION. The frame-buffer commands SET_COLOR and CLEAR (40_frame_buffer.md).

A meaning is the command's pseudocode at the edge that ends its accepting cycle; the cycle calls it only
in IDLE with `rst = 0` and a word offered (R100). -/

namespace Sys2Proof.Machine

/-- SET_COLOR (R101): in range, LED `idx` takes `[g, r, b]`; out of range, nothing changes (R102). -/
def execSetColor (idx : Nat) (r g b : Byte) (s : State) : Result :=
  if s.inRange idx then .next (s.storeLed idx r g b) else .next s

/-- CLEAR (R103): every byte of FB takes 0x00 and a frame starts, at one edge. -/
def execClear (s : State) : Result := .next (startFrame 0x00#8 s.zeroFB)

end Sys2Proof.Machine
end

