-- ==== Sys2Proof/Machine/Transmit.lean ====
section
/-! DEFINITION. The command SHOW, the serializer with its bit timing generator, and the reset-gap timer
(41_protocol_encoder.md). -/

namespace Sys2Proof.Machine

/-- SHOW (R120): a frame starts with `FB[0]`; FB and ILL unchanged. -/
def execShow (s : State) : Result := readFB s 0 fun b => .next (startFrame b s)

/-! ### State SEND -/

/-- Inside a bit period (R123). -/
def nextCycle (s : State) : State := { s with tcnt := s.tcnt + 1 }

/-- The end of a bit that is not the last of its byte: `sh <- {sh[6:0], 0}` (R124). -/
def nextBit (s : State) : State := { s with tcnt := 0, sh := s.sh <<< 1, bitn := s.bitn - 1#3 }

/-- The end of a byte that is not the last: the next byte `b` is loaded (R125). -/
def nextByte (b : Byte) (s : State) : State :=
  { s with tcnt := 0, ptr := s.ptr + 1, sh := b, bitn := 7#3 }

/-- The end of the last byte: GAP is entered; `ptr`, `sh` and `bitn` hold (R126). -/
def endSend (s : State) : State := { s with st := .gap, tcnt := 0 }

/-- `SendStep(s)` (R127). -/
def sendStep (s : State) : Result :=
  if s.tcnt < s.cfg.T_BIT - 1 then .next (nextCycle s)
  else if 0#3 < s.bitn then .next (nextBit s)
  else if s.ptr < s.cfg.fbSize - 1 then readFB s (s.ptr + 1) fun b => .next (nextByte b s)
  else .next (endSend s)

/-! ### State GAP -/

/-- The end of the gap: IDLE is entered (R136). -/
def endGap (s : State) : State := { s with st := .idle, tcnt := 0 }

/-- The step of the reset-gap timer (R135, R136). -/
def gapStep (s : State) : State :=
  if s.tcnt < s.cfg.T_RESET - 1 then nextCycle s else endGap s

end Sys2Proof.Machine
end

