-- ==== Sys2Proof/Machine/Dispatch.lean ====
section
/-! DEFINITION. The meaning of each command (41_protocol_encoder.md R148, the cases of `Decode`). -/

namespace Sys2Proof.Machine

/-- The effect of an accepted command at its accepting edge. -/
def exec (i : Instr) (s : State) : Host.Outcome State Fault Refusal :=
  match i with
  | .nop => Sys2Proof.Machine.execNop s
  | .setColor idx r g b => Sys2Proof.Machine.execSetColor idx r g b s
  | .clear => Sys2Proof.Machine.execClear s
  | .showFrame => Sys2Proof.Machine.execShow s

end Sys2Proof.Machine
end

