-- ==== Sys2Proof/Machine/Cycle.lean ====
section
/-! DEFINITION. One clock cycle of the block: `Step(s, rst, valid, w)` (41_protocol_encoder.md R148). -/

namespace Sys2Proof.Machine

/-- What an accepted word does: the decoded command, or IllegalCommand (R148). -/
def runWord (w : Word) (s : State) : Result :=
  match decode w with
  | some i => exec i s
  | none => execIllegal s

/-- One rising edge of `clk`, with the inputs of the cycle it ends: reset first, then the FSM's own
transition, then, in IDLE only, the offered word (R148, 60_exceptions.md R175). -/
def cycle (inp : Input) (s : State) : Result :=
  if inp.rst then .next (resetEdge s)
  else
    match s.st with
    | .idle => if inp.cmdValid then runWord inp.cmdData s else .next s
    | .send => sendStep s
    | .gap => .next (gapStep s)

end Sys2Proof.Machine
end

