-- ==== Sys2Proof/Machine/Step.lean ====
section
/-! DEFINITION. The machine's step, and how a command word is placed before it. -/

namespace Sys2Proof.Machine

/-- One step is one rising edge of `clk`: the current cycle's inputs are used up and their effect takes
place (00_scope.md R14, 41_protocol_encoder.md R148). -/
def step (s : State) : Host.Outcome State Fault Refusal := cycle s.input s.advance

/-- `s` in IDLE with the word of a table number offered in the current cycle, so that the very next step
accepts it and runs it.
The block fetches nothing (10_state.md R22): a word is accepted in IDLE with `rst = 0` (R36), and in IDLE
`tcnt` is 0 (R27). -/
def State.withFetchWord (s : State) (nbits w : Nat) : State :=
  { s with
    st := .idle
    tcnt := 0
    inputs := ⟨false, true, BitVec.ofNat 64 (w % 2 ^ nbits)⟩ :: s.inputs.tail }

end Sys2Proof.Machine
end

