-- ==== Sys2Proof/Machine/Asm.lean ====
section
/-! DEFINITION. The assembler of command streams: its lines, the pseudo-instructions and the text form
(30_encoding.md R80, R81).

It stands on the host's side of the command port and is no part of the block's state. -/

namespace Sys2Proof.Machine

/-- A line that assembles to one word (R80). -/
inductive CoreLine where
  | nop
  | setcolor (idx r g b : Nat)
  | clear
  | showFrame
  | word (v : Nat)
  deriving DecidableEq, Repr

/-- A line of the assembler: a core line, or a pseudo-instruction (R81). -/
inductive AsmLine where
  | core (l : CoreLine)
  | off
  | fill (r g b : Nat)
  | fillshow (r g b : Nat)
  | paint (idx r g b : Nat)
  deriving DecidableEq, Repr

/-- The word of a core line (R80).
`setcolor` with IDX > 65535 or a channel > 255 is refused, never reduced; a `.word` value of more than
64 bits is refused as well. -/
def assembleCore : CoreLine → Option Word
  | .nop => some (encode .nop)
  | .setcolor idx r g b =>
    if idx ≤ 65535 ∧ r ≤ 255 ∧ g ≤ 255 ∧ b ≤ 255 then
      some (encode (.setColor idx (BitVec.ofNat 8 r) (BitVec.ofNat 8 g) (BitVec.ofNat 8 b)))
    else none
  | .clear => some (encode .clear)
  | .showFrame => some (encode .showFrame)
  | .word v => if v < 2 ^ 64 then some (BitVec.ofNat 64 v) else none

/-- `setcolor 0, …` to `setcolor N−1, …`, ascending (R81). -/
def fillLines (N r g b : Nat) : List CoreLine := (List.range N).map fun i => .setcolor i r g b

/-- The exact expansion of a line, for the strip length `N` (R81). -/
def expand (N : Nat) : AsmLine → List CoreLine
  | .core l => [l]
  | .off => [.clear]
  | .fill r g b => fillLines N r g b
  | .fillshow r g b => fillLines N r g b ++ [.showFrame]
  | .paint idx r g b => [.setcolor idx r g b, .showFrame]

/-- The words of a sequence of core lines; refused if one line is. -/
def assembleCores : List CoreLine → Option (List Word)
  | [] => some []
  | l :: ls =>
    match assembleCore l, assembleCores ls with
    | some w, some ws => some (w :: ws)
    | _, _ => none

/-- The words of a line. -/
def assemble (N : Nat) (l : AsmLine) : Option (List Word) := assembleCores (expand N l)

/-! ### Text: one command a line (R80) -/

/-- The line up to its comment, which runs from `;` to the end of the line. -/
def stripComment (cs : List Char) : List Char := cs.takeWhile fun c => c != ';'

/-- A space or a tab. -/
def isBlank (c : Char) : Bool := c == ' ' || c == '\t'

/-- The text without the blanks around it. -/
def trimBlanks (cs : List Char) : List Char :=
  ((cs.dropWhile isBlank).reverse.dropWhile isBlank).reverse

/-- The value of a digit, if it is one of the base. -/
def digitValue (base : Nat) (c : Char) : Option Nat :=
  let n := c.toNat
  let v := if 48 ≤ n ∧ n ≤ 57 then n - 48 else if 97 ≤ n ∧ n ≤ 102 then n - 87
    else if 65 ≤ n ∧ n ≤ 70 then n - 55 else base
  if v < base then some v else none

/-- The value of a digit string after `acc`; `_` separates digits and counts for nothing. -/
def digitsFrom (base : Nat) (acc : Nat) : List Char → Option Nat
  | [] => some acc
  | c :: cs =>
    if c = '_' then digitsFrom base acc cs
    else
      match digitValue base c with
      | some v => digitsFrom base (acc * base + v) cs
      | none => none

/-- Digits of a base, of which the first is a digit. -/
def digits (base : Nat) : List Char → Option Nat
  | [] => none
  | c :: cs =>
    match digitValue base c with
    | some v => digitsFrom base v cs
    | none => none

/-- A decimal numeral, or a hexadecimal one after `0x` (R80). -/
def numeral : List Char → Option Nat
  | '0' :: 'x' :: cs => digits 16 cs
  | cs => digits 10 cs

/-- The text cut at its commas. -/
def splitCommas : List Char → List (List Char)
  | [] => [[]]
  | c :: cs =>
    if c = ',' then [] :: splitCommas cs
    else
      match splitCommas cs with
      | p :: ps => (c :: p) :: ps
      | [] => [[c]]

/-- The values of a list of numerals; refused if one is none. -/
def numerals : List (List Char) → Option (List Nat)
  | [] => some []
  | p :: ps =>
    match numeral (trimBlanks p), numerals ps with
    | some v, some vs => some (v :: vs)
    | _, _ => none

/-- The operands after a mnemonic: numerals separated by commas, none if the text is empty. -/
def operands (cs : List Char) : Option (List Nat) :=
  if cs = [] then some [] else numerals (splitCommas cs)

/-- A mnemonic with its operands; refused if the mnemonic is unknown or their number is wrong. -/
def lineOf (m : List Char) (ops : List Nat) : Option AsmLine :=
  if m = ['n', 'o', 'p'] ∧ ops = [] then some (.core .nop)
  else if m = ['c', 'l', 'e', 'a', 'r'] ∧ ops = [] then some (.core .clear)
  else if m = ['s', 'h', 'o', 'w'] ∧ ops = [] then some (.core .showFrame)
  else if m = ['o', 'f', 'f'] ∧ ops = [] then some .off
  else
    match ops with
    | [v] => if m = ['.', 'w', 'o', 'r', 'd'] then some (.core (.word v)) else none
    | [r, g, b] =>
      if m = ['f', 'i', 'l', 'l'] then some (.fill r g b)
      else if m = ['f', 'i', 'l', 'l', 's', 'h', 'o', 'w'] then some (.fillshow r g b)
      else none
    | [i, r, g, b] =>
      if m = ['s', 'e', 't', 'c', 'o', 'l', 'o', 'r'] then some (.core (.setcolor i r g b))
      else if m = ['p', 'a', 'i', 'n', 't'] then some (.paint i r g b)
      else none
    | _ => none

/-- The commands of one text line: none for a blank or comment line; refused if it is malformed. -/
def parseLine (cs : List Char) : Option (List AsmLine) :=
  let body := trimBlanks (stripComment cs)
  if body = [] then some []
  else
    let m := body.takeWhile fun c => !isBlank c
    match operands (trimBlanks (body.drop m.length)) with
    | some ops => (lineOf m ops).map fun l => [l]
    | none => none

/-- The words of one text line, for the strip length `N`. -/
def assembleText (N : Nat) (cs : List Char) : Option (List Word) :=
  match parseLine cs with
  | some [l] => assemble N l
  | some _ => some []
  | none => none

end Sys2Proof.Machine
end

