-- ==== Sys2Proof/Machine/Flags.lean ====
section
/-! DEFINITION. The status register, its flags, and the command handshake (10_state.md R33 to R37). -/

namespace Sys2Proof.Machine

/-- STATUS bit 0: the block is in SEND or GAP (R33). -/
def State.BUSY (s : State) : Bool := s.st != .idle

/-- STATUS bit 1: a transmit is in progress (R33). -/
def State.TX (s : State) : Bool := s.st == .send

/-- STATUS bit 2: the reset-gap timer is running (R33). -/
def State.GAPF (s : State) : Bool := s.st == .gap

/-- `status = {0000, ILL, st == GAP, st == SEND, st != IDLE}`: read-only, a function of the state alone
(R33, R34, 42_control.md R162). -/
def State.status (s : State) : BitVec 8 :=
  0#4 ++ (BitVec.ofBool s.ILL ++ (BitVec.ofBool s.GAPF ++ (BitVec.ofBool s.TX ++ BitVec.ofBool s.BUSY)))

/-- `cmd_ready = (st == IDLE) ∧ (rst == 0)` (R36). -/
def State.cmdReady (s : State) : Bool := s.st == .idle && !s.input.rst

/-- A word is accepted in this cycle: `cmd_valid = 1 ∧ cmd_ready = 1` (R36). -/
def State.accepted (s : State) : Bool := s.input.cmdValid && s.cmdReady

/-- A word is offered in this cycle and not consumed (00_scope.md R17, 10_state.md R37). -/
def State.stalled (s : State) : Bool := s.input.cmdValid && !s.cmdReady

end Sys2Proof.Machine
end

