-- ==== Sys2Proof/Machine/Line.lean ====
section
/-! DEFINITION. The output line and pin, and the bits and waveform of a frame as the spec writes them
(41_protocol_encoder.md R122, R128, R139, R140, R142, R144). -/

namespace Sys2Proof.Machine

/-- The bit on the line in SEND, `sh[7]` (10_state.md R25). -/
def State.curBit (s : State) : Bool := s.sh.getLsbD 7

/-- `line(s) = (st == SEND) and (tcnt < TH(sh[7]))` (R139): 1 is a pulse, 0 is idle. -/
def State.line (s : State) : Bool := s.st == .send && decide (s.tcnt < s.cfg.TH s.curBit)

/-- The pin: `dout = (line(s) and not rst) XOR INV` (R140). -/
def State.dout (s : State) : Bool := (s.line && !s.input.rst) ^^ s.cfg.INV

/-- `Bits(F)[j] = F[j div 8][7 − (j mod 8)]` (R128).
R128 defines it for `j < 24·N`; past the frame's last bit the same formula is read on
(DESIGN CHOICE, notes/assumptions/21.md). -/
def frameBit (F : Memory) (j : Nat) : Bool := (F.read (j / 8)).getLsbD (7 - j % 8)

/-- `Wave(F, k)` at cycle `k + 1 + n` (R142): the logical level `n` cycles into a frame that carries `F`,
its gap included.
R142 defines `Wave` up to the gap's last cycle, `n < D_FRAME`; from `n = D_FRAME` on the level here is 0
(DESIGN CHOICE, notes/assumptions/21.md). -/
def frameLine (c : Config) (F : Memory) (n : Nat) : Bool :=
  decide (n < c.sendLen) && decide (n % c.T_BIT < c.TH (frameBit F (n / c.T_BIT)))

/-- The lengths of the maximal runs of 1s of a waveform, in order; `n` counts a run already open (R144). -/
def runLengthsFrom (n : Nat) : List Bool → List Nat
  | [] => if n = 0 then [] else [n]
  | true :: l => runLengthsFrom (n + 1) l
  | false :: l => if n = 0 then runLengthsFrom 0 l else n :: runLengthsFrom 0 l

/-- The lengths of the maximal runs of 1s of a waveform, in order (R144). -/
def runLengths (l : List Bool) : List Nat := runLengthsFrom 0 l

/-- A decoder of the line: bit `j` is 1 iff run `j` is `T_H1` cycles long (R144).
A run of any length but `T_H0` and `T_H1`, as a reset may cut one, has no bit value in the spec; it reads
as 0 here (DESIGN CHOICE, notes/assumptions/20.md). -/
def recoverBits (c : Config) (l : List Bool) : List Bool := (runLengths l).map fun n => n == c.T_H1

end Sys2Proof.Machine
end

