-- ==== Sys2Proof/Safety.lean ====
section
/-! DEFINITION. The terms claims are stated in: runs of several cycles, resets within them, and the
invariant of every state reachable from reset (10_state.md R30). -/

namespace Sys2Proof.Machine

/-- `s_n` from `s_0 = s`: `n` cycles, stopping at the first fault or refusal (00_scope.md R14). -/
def cycles : Nat → State → Result
  | 0, s => .next s
  | n + 1, s =>
    match step s with
    | .next t => cycles n t
    | .fault r => .fault r
    | .refused r => .refused r

/-- The logical levels of `line` in the first `n` cycles from `s` on. -/
def lineTrace : Nat → State → List Bool
  | 0, _ => []
  | n + 1, s =>
    s.line ::
      match step s with
      | .next t => lineTrace n t
      | .fault _ => []
      | .refused _ => []

/-- `rst = 0` in each of the first `n` cycles from `s` on. -/
abbrev State.noReset (s : State) (n : Nat) : Prop := ∀ i ∈ s.inputs.take n, i.rst = false

/-- The host offers no word in any of the first `n` cycles from `s` on. -/
abbrev State.noWord (s : State) (n : Nat) : Prop := ∀ i ∈ s.inputs.take n, i.cmdValid = false

/-- A frame that carries `F` starts in this cycle: SHOW is accepted and `F` is FB, or CLEAR is accepted and
`F` is all zero (20_memory.md R57). -/
abbrev State.startsFrame (s : State) (F : Memory) : Prop :=
  s.accepted = true ∧
    ((decode s.input.cmdData = some .showFrame ∧ F = s.FB) ∨
      (decode s.input.cmdData = some .clear ∧ ∀ a, F.read a = 0x00#8))

/-- The frame buffer is canonical and lies within its `3·N` bytes (20_memory.md R56). -/
abbrev State.FBok (s : State) : Prop := s.FB.wf = true ∧ s.FB.below s.cfg.fbSize = true

/-- What R30 says of the counters in each FSM state. -/
abbrev State.countersOk (s : State) : Prop :=
  (s.st = .idle → s.tcnt = 0) ∧
  (s.st = .send →
    s.tcnt ≤ s.cfg.T_BIT - 1 ∧ s.ptr ≤ s.cfg.fbSize - 1 ∧
      s.sh = s.FB.read s.ptr <<< (7 - s.bitn.toNat)) ∧
  (s.st = .gap → s.tcnt ≤ s.cfg.T_RESET - 1)

/-- The invariant of every state reachable from reset: a legal build, a frame buffer in its form, the
counters as R30 says, and `ptr` within FB in every state (R24). -/
abbrev State.Inv (s : State) : Prop :=
  s.cfg.wf ∧ s.FBok ∧ s.countersOk ∧ s.ptr ≤ s.cfg.fbSize - 1

end Sys2Proof.Machine
end

