-- ==== Sys2Proof/Certificates/Slice0/Obligations.lean ====
section
/-! DEFINITION. The statements for the provers, from the spec's numbered rules. -/

open Sys2Proof Sys2Proof.Machine

/-! ### Encoding (30_encoding.md) -/

/-- Words written out from the spec's encoding decode to the commands they stand for
(95_test_vectors.md section 2, Decode). -/
def Obligations.DecodeReadsTheSpecsWords : Prop :=
  decode 0x0000000000000000#64 = some .nop ∧
  decode 0x0000000000000001#64 = none ∧
  decode 0x010000030000FFFF#64 = some (.setColor 3 0x00#8 0xFF#8 0xFF#8) ∧
  decode 0x0100FFFFFFFFFFFF#64 = none ∧
  decode 0x0100FFFF00FFFFFF#64 = some (.setColor 65535 0xFF#8 0xFF#8 0xFF#8) ∧
  decode 0x0101000000FF0000#64 = none ∧
  decode 0x0200000000000000#64 = some .clear ∧
  decode 0x0200000000000100#64 = none ∧
  decode 0x0300000000000000#64 = some .showFrame ∧
  decode 0x0380000000000000#64 = none ∧
  decode 0x0400000000000000#64 = none ∧
  decode 0xFFFFFFFFFFFFFFFF#64 = none

/-- Decoding the word of a well-formed command gives the command back (R71, R78). -/
def Obligations.DecodeOfEncodeIsTheCommand : Prop :=
  ∀ i : Instr, i.wf = true → decode (encode i) = some i

/-- A word that decodes to a command is that command's word, and the command is well formed
(R76, R78). -/
def Obligations.EncodeOfDecodeIsTheWord : Prop :=
  ∀ (w : Word) (i : Instr), decode w = some i → i.wf = true ∧ encode i = w

/-- R76: a word is legal iff it matches one row of the table; each row's words decode to the row's
command; NOP, CLEAR and SHOW have one word each and SET_COLOR one per operand tuple; the rows do not
overlap. -/
def Obligations.LegalWordsAreTheTablesRows : Prop :=
  (∀ w : Word, (decode w).isSome = true ↔
    w &&& 0xFFFFFFFFFFFFFFFF#64 = 0x0000000000000000#64 ∨
    w &&& 0xFFFF0000FF000000#64 = 0x0100000000000000#64 ∨
    w &&& 0xFFFFFFFFFFFFFFFF#64 = 0x0200000000000000#64 ∨
    w &&& 0xFFFFFFFFFFFFFFFF#64 = 0x0300000000000000#64) ∧
  (∀ w : Word, decode w = some .nop ↔ w &&& 0xFFFFFFFFFFFFFFFF#64 = 0x0000000000000000#64) ∧
  (∀ w : Word, (∃ idx r g b, decode w = some (.setColor idx r g b)) ↔
    w &&& 0xFFFF0000FF000000#64 = 0x0100000000000000#64) ∧
  (∀ w : Word, decode w = some .clear ↔ w &&& 0xFFFFFFFFFFFFFFFF#64 = 0x0200000000000000#64) ∧
  (∀ w : Word, decode w = some .showFrame ↔ w &&& 0xFFFFFFFFFFFFFFFF#64 = 0x0300000000000000#64) ∧
  (∃! w : Word, decode w = some .nop) ∧
  (∃! w : Word, decode w = some .clear) ∧
  (∃! w : Word, decode w = some .showFrame) ∧
  (∀ (idx : BitVec 16) (r g b : Byte), ∃! w : Word, decode w = some (.setColor idx.toNat r g b)) ∧
  (∀ (w : Word) (i j : Instr), matchesRow w i = true → matchesRow w j = true →
    rowMask i = rowMask j ∧ rowBits i = rowBits j)

/-- The operands of a SET_COLOR word as unsigned numbers: `IDX = cmd[47:32]`, `R = cmd[23:16]`,
`G = cmd[15:8]`, `B = cmd[7:0]` (R74, R75). -/
def Obligations.SetColorFieldsAreTheSpecsBits : Prop :=
  ∀ (w : Word) (idx : Nat) (r g b : Byte), decode w = some (.setColor idx r g b) →
    idx = w.toNat / 2 ^ 32 % 2 ^ 16 ∧ r.toNat = w.toNat / 2 ^ 16 % 2 ^ 8 ∧
      g.toNat = w.toNat / 2 ^ 8 % 2 ^ 8 ∧ b.toNat = w.toNat % 2 ^ 8

/-- R77: the illegal words are those of three kinds, and each of them, once accepted, changes nothing but
ILL. -/
def Obligations.IllegalWordsAreOfThreeKinds : Prop :=
  (∀ w : Word, decode w = none ↔
    0x04#8 ≤ opOf w ∨
    (opOf w = 0x01#8 ∧ (rsv1Of w ≠ 0#8 ∨ rsv0Of w ≠ 0#8)) ∨
    ((opOf w = 0x00#8 ∨ opOf w = 0x02#8 ∨ opOf w = 0x03#8) ∧ belowOp w ≠ 0#56)) ∧
  (∀ s : State, s.accepted = true → decode s.input.cmdData = none →
    step s = .next { s.advance with ILL := true })

/-! ### The step and the command handshake -/

/-- The step of a cycle that accepts a legal word is the effect of the decoded command, the cycle's inputs
used up (30_encoding.md R78, 40_frame_buffer.md R100). -/
def Obligations.StepRunsTheDecodedCommand : Prop :=
  ∀ (s : State) (i : Instr), s.accepted = true → decode s.input.cmdData = some i →
    step s = exec i s.advance

/-- R36: `cmd_ready` is IDLE and no reset, whatever is offered; a word is accepted iff it is offered and
`cmd_ready` is 1, and takes effect at the edge that ends its cycle; in SEND and in GAP every word stalls. -/
def Obligations.CommandReadyIsIdleWithoutReset : Prop :=
  (∀ s : State, s.cmdReady = true ↔ s.st = .idle ∧ s.input.rst = false) ∧
  (∀ (s : State) (v : Bool) (w : Word) (is : List Input),
    ({ s with inputs := ⟨s.input.rst, v, w⟩ :: is } : State).cmdReady = s.cmdReady) ∧
  (∀ s : State, s.accepted = true ↔ s.input.cmdValid = true ∧ s.cmdReady = true) ∧
  (∀ s : State, s.accepted = true → step s = runWord s.input.cmdData s.advance) ∧
  (∀ s : State, s.st ≠ .idle → s.input.cmdValid = true → s.stalled = true ∧ s.accepted = false)

/-- R37: what is offered in a cycle with `cmd_ready = 0` has no effect of any kind. -/
def Obligations.StalledWordHasNoEffect : Prop :=
  ∀ (s : State) (v : Bool) (w : Word), s.cmdReady = false →
    step { s with inputs := ⟨s.input.rst, v, w⟩ :: s.inputs.tail } = step s

/-- The step is total: a legal build answers a next state in every cycle of every run
(60_exceptions.md R170, 41_protocol_encoder.md R148). -/
def Obligations.EveryRunGoesOn : Prop :=
  ∀ (s : State) (n : Nat), s.cfg.wf → ∃ t, cycles n s = .next t

/-- No step changes a build parameter, and a step uses up one cycle of inputs (00_scope.md R14, R31; the
two fields are the model's own, notes/assumptions/1.md and 2.md). -/
def Obligations.BuildNeverChanges : Prop :=
  ∀ s t : State, step s = .next t → t.cfg = s.cfg ∧ t.inputs = s.inputs.tail

/-! ### The commands -/

/-- R160: NOP changes no register; like every command it is accepted only in IDLE, and an all-zero word
is NOP. -/
def Obligations.NopChangesNothing : Prop :=
  (∀ s : State, exec .nop s = .next s) ∧
  (∀ s : State, s.accepted = true → s.input.cmdData = 0#64 → s.st = .idle ∧ step s = .next s.advance)

/-- R101: SET_COLOR with an index in range stores `[g, r, b]` at offsets `3·i`, `3·i + 1` and `3·i + 2`
and changes nothing else; with an index out of range it changes nothing.
The premise is the canonical form of the frame buffer, which every step keeps
(`StepKeepsTheInvariant`). -/
def Obligations.SetColorStoresWireOrder : Prop :=
  (∀ (s : State) (i : Nat) (r g b : Byte), s.FB.wf = true → i < s.cfg.N →
    ∃ m : Memory, exec (.setColor i r g b) s = .next { s with FB := m } ∧
      m.read (3 * i + 0) = g ∧ m.read (3 * i + 1) = r ∧ m.read (3 * i + 2) = b ∧
      ∀ a, a ≠ 3 * i + 0 → a ≠ 3 * i + 1 → a ≠ 3 * i + 2 → m.read a = s.FB.read a) ∧
  (∀ (s : State) (i : Nat) (r g b : Byte), ¬ i < s.cfg.N → exec (.setColor i r g b) s = .next s)

/-- R102: an accepted SET_COLOR with `IDX ≥ N` changes no state at all and takes its one cycle; a word with
OP = 0x01 and non-zero reserved fields is illegal whatever its IDX. -/
def Obligations.OutOfRangeSetColorIsIgnored : Prop :=
  (∀ (s : State) (i : Nat) (r g b : Byte), s.accepted = true →
    decode s.input.cmdData = some (.setColor i r g b) → s.cfg.N ≤ i →
    exec (.setColor i r g b) s = .next s ∧ step s = .next s.advance) ∧
  (∀ w : Word, opOf w = 0x01#8 → rsv1Of w ≠ 0#8 ∨ rsv0Of w ≠ 0#8 → decode w = none)

/-- SET_COLOR with the same operands is idempotent, and a second CLEAR over the buffer that the first left
keeps it and starts its frame afresh (20_memory.md R55, 40_frame_buffer.md R104).
The second CLEAR is taken in every state `u` with that buffer: the IDLE state in which the hardware accepts
it, and states outside IDLE too, where the hardware stalls and `exec` gives the effect all the same, which is
the model's (notes/assumptions/14.md).
The premise of the first clause is the canonical form of the frame buffer (`StepKeepsTheInvariant`). -/
def Obligations.SetColorAndClearAreIdempotent : Prop :=
  (∀ (s t : State) (i : Nat) (r g b : Byte), s.FB.wf = true →
    exec (.setColor i r g b) s = .next t → exec (.setColor i r g b) t = .next t) ∧
  (∀ s t u : State, exec .clear s = .next t → u.FB = t.FB →
    exec .clear u = .next { t with ILL := u.ILL, cfg := u.cfg, inputs := u.inputs })

/-- R103: CLEAR zeroes every byte and starts a frame at the same edge; ILL is unchanged, BUSY and TX are 1
and GAPF is 0 from the next cycle; it is accepted only in IDLE. -/
def Obligations.ClearZeroesAndStartsAFrame : Prop :=
  (∀ s : State, ∃ m : Memory, (∀ a, m.read a = 0x00#8) ∧
    exec .clear s =
      .next { s with FB := m, st := .send, ptr := 0, sh := 0x00#8, bitn := 7#3, tcnt := 0 }) ∧
  (∀ s t : State, exec .clear s = .next t →
    t.BUSY = true ∧ t.TX = true ∧ t.GAPF = false ∧ t.ILL = s.ILL) ∧
  (∀ s : State, s.accepted = true → s.st = .idle)

/-- R120: SHOW starts a frame with FB[0]; FB and ILL are unchanged, BUSY and TX are 1 and GAPF is 0 from the
next cycle; it is accepted only in IDLE.
A legal build has at least one LED, so FB[0] exists. -/
def Obligations.ShowStartsAFrame : Prop :=
  (∀ s : State, s.cfg.wf →
    exec .showFrame s =
      .next { s with st := .send, ptr := 0, sh := s.FB.read 0, bitn := 7#3, tcnt := 0 }) ∧
  (∀ s t : State, exec .showFrame s = .next t →
    t.BUSY = true ∧ t.TX = true ∧ t.GAPF = false ∧ t.ILL = s.ILL ∧ t.FB = s.FB) ∧
  (∀ s : State, s.accepted = true → s.st = .idle)

/-- R121: a frame start, by SHOW or by CLEAR, sets the serializer's position at the accepting edge, and in
the next cycle the line carries bit 7 of byte 0 in cycle 0 of its bit period. -/
def Obligations.FrameStartPutsTheFirstBitOnTheLine : Prop :=
  ∀ (s : State) (F : Memory), s.cfg.wf → s.startsFrame F →
    ∃ t, step s = .next t ∧ t.st = .send ∧ t.ptr = 0 ∧ t.sh = F.read 0 ∧ t.bitn = 7#3 ∧ t.tcnt = 0 ∧
      t.line = decide (0 < s.cfg.TH ((F.read 0).getLsbD 7))

/-- NOP, SET_COLOR with any index, and an illegal word take one cycle and no busy cycle
(70_reset_and_hazards.md R202). -/
def Obligations.SingleCycleCommandsLeaveIdle : Prop :=
  ∀ s : State, s.accepted = true → decode s.input.cmdData ≠ some .clear →
    decode s.input.cmdData ≠ some .showFrame →
    ∃ t, step s = .next t ∧ t.st = .idle ∧ t.BUSY = false ∧ t.cmdReady = !t.input.rst

/-! ### The exception IllegalCommand and the status register -/

/-- R161, R171: an accepted illegal word sets ILL and changes nothing else, and STATUS bit 3 shows it; an
illegal word offered in SEND or GAP is not accepted and leaves ILL as it is; a SET_COLOR word is not illegal
whatever its index. -/
def Obligations.IllegalCommandOnlySetsIll : Prop :=
  (∀ s : State, s.accepted = true → decode s.input.cmdData = none →
    step s = .next { s.advance with ILL := true } ∧
    ({ s.advance with ILL := true } : State).status.getLsbD 3 = true) ∧
  (∀ s t : State, s.st ≠ .idle → s.input.rst = false → decode s.input.cmdData = none →
    step s = .next t → s.accepted = false ∧ t.ILL = s.ILL) ∧
  (∀ (i : Nat) (r g b : Byte), i < 65536 → decode (encode (.setColor i r g b)) ≠ none)

/-- R178: ILL stays 1 until a reset; a further illegal word then changes nothing; and ILL changes nothing in
how any command, or any cycle, behaves. -/
def Obligations.IllIsStickyAndInert : Prop :=
  (∀ s t : State, s.ILL = true → s.input.rst = false → step s = .next t → t.ILL = true) ∧
  (∀ s : State, s.ILL = true → s.accepted = true → decode s.input.cmdData = none →
    step s = .next s.advance) ∧
  (∀ (s t : State) (b : Bool), step s = .next t →
    ∃ c : Bool, step { s with ILL := b } = .next { t with ILL := c }) ∧
  (∀ (i : Instr) (s t : State) (b : Bool), exec i s = .next t →
    exec i { s with ILL := b } = .next { t with ILL := b })

/-- R33: the bits of `status`, a function of the registers whatever the host drives, and its value in the
reset state. -/
def Obligations.StatusBitsAreTheFlags : Prop :=
  (∀ s : State,
    (s.status.getLsbD 0 = true ↔ s.st ≠ .idle) ∧
    (s.status.getLsbD 1 = true ↔ s.st = .send) ∧
    (s.status.getLsbD 2 = true ↔ s.st = .gap) ∧
    s.status.getLsbD 3 = s.ILL ∧
    s.status.extractLsb' 4 4 = 0#4) ∧
  (∀ (s : State) (is : List Input), ({ s with inputs := is } : State).status = s.status) ∧
  ∀ s : State, (resetEdge s).status = 0x05#8

/-- R35: each flag changes at its own events and at no other, and no command reads a flag.
The premise of the first clause is the invariant (`StepKeepsTheInvariant`), which bounds the counters. -/
def Obligations.FlagsChangeOnlyAtTheirEvents : Prop :=
  (∀ s t : State, s.Inv → step s = .next t →
    let starts := s.accepted = true ∧
      (decode s.input.cmdData = some .showFrame ∨ decode s.input.cmdData = some .clear)
    let lastBitEnds := s.st = .send ∧ s.tcnt = s.cfg.T_BIT - 1 ∧ s.bitn = 0#3 ∧ s.ptr = 3 * s.cfg.N - 1
    let gapEnds := s.st = .gap ∧ s.tcnt = s.cfg.T_RESET - 1
    (t.BUSY = true ↔ s.input.rst = true ∨ starts ∨ (s.BUSY = true ∧ ¬ gapEnds)) ∧
    (t.TX = true ↔ s.input.rst = false ∧ (starts ∨ (s.TX = true ∧ ¬ lastBitEnds))) ∧
    (t.GAPF = true ↔ s.input.rst = true ∨ lastBitEnds ∨ (s.GAPF = true ∧ ¬ gapEnds)) ∧
    (t.ILL = true ↔ s.input.rst = false ∧
      (s.ILL = true ∨ (s.accepted = true ∧ decode s.input.cmdData = none)))) ∧
  (∀ (i : Instr) (s t : State) (f : Fsm) (b : Bool), exec i s = .next t →
    ∃ t', exec i { s with st := f, ILL := b } = .next t' ∧
      { t' with st := t.st, ILL := t.ILL } = t)

/-! ### The frame buffer (20_memory.md) -/

/-- Only reset, an accepted CLEAR and an accepted SET_COLOR in range change a byte of FB, and SET_COLOR only
a byte of its own LED (20_memory.md R51). -/
def Obligations.FrameBufferHasNoOtherWriter : Prop :=
  ∀ (s t : State) (a : Nat), step s = .next t → t.FB.read a ≠ s.FB.read a →
    s.input.rst = true ∨
    (s.accepted = true ∧
      (decode s.input.cmdData = some .clear ∨
        ∃ i r g b, decode s.input.cmdData = some (.setColor i r g b) ∧ i < s.cfg.N ∧
          3 * i ≤ a ∧ a < 3 * i + 3))

/-- FB does not change while the block is busy, so a frame carries FB as it is after the edge that starts
it (20_memory.md R57). -/
def Obligations.FrameBufferIsConstantDuringAFrame : Prop :=
  (∀ s t : State, s.st ≠ .idle → s.input.rst = false → step s = .next t → t.FB = s.FB) ∧
  (∀ (s : State) (F : Memory), s.cfg.wf → s.startsFrame F → s.noReset (s.cfg.D_FRAME + 1) →
    ∀ n, 1 ≤ n → n ≤ s.cfg.D_FRAME + 1 →
      ∃ t, cycles n s = .next t ∧ ∀ a, t.FB.read a = F.read a)

/-! ### The serializer, the bit timing generator and the reset-gap timer (41_protocol_encoder.md) -/

/-- R123, R124, R127: the SEND step, case by case; each case starts where the one before it does not hold. -/
def Obligations.SendStepCases : Prop :=
  ∀ s : State, s.st = .send → s.input.rst = false →
    (s.tcnt < s.cfg.T_BIT - 1 → step s = .next { s.advance with tcnt := s.tcnt + 1 }) ∧
    (¬ s.tcnt < s.cfg.T_BIT - 1 → 0 < s.bitn.toNat →
      ∃ t, step s = .next t ∧
        t = { s.advance with tcnt := 0, sh := s.sh.extractLsb' 0 7 ++ 0#1, bitn := t.bitn } ∧
        t.bitn.toNat = s.bitn.toNat - 1) ∧
    (¬ s.tcnt < s.cfg.T_BIT - 1 → s.bitn.toNat = 0 → s.ptr < 3 * s.cfg.N - 1 →
      step s = .next
        { s.advance with tcnt := 0, ptr := s.ptr + 1, sh := s.FB.read (s.ptr + 1), bitn := 7#3 }) ∧
    (¬ s.tcnt < s.cfg.T_BIT - 1 → s.bitn.toNat = 0 → ¬ s.ptr < 3 * s.cfg.N - 1 →
      step s = .next { s.advance with st := .gap, tcnt := 0 })

/-- R135, R136: the GAP step, and the exact length of a gap. -/
def Obligations.GapLastsExactlyTReset : Prop :=
  (∀ s : State, s.st = .gap → s.input.rst = false →
    s.cmdReady = false ∧
    (s.tcnt < s.cfg.T_RESET - 1 → step s = .next { s.advance with tcnt := s.tcnt + 1 }) ∧
    (s.tcnt = s.cfg.T_RESET - 1 → step s = .next { s.advance with st := .idle, tcnt := 0 })) ∧
  (∀ s : State, s.cfg.wf → s.st = .gap → s.tcnt = 0 → s.noReset s.cfg.T_RESET →
    (∀ n, n < s.cfg.T_RESET → ∃ t, cycles n s = .next t ∧ t.st = .gap ∧ t.tcnt = n) ∧
    ∃ t, cycles s.cfg.T_RESET s = .next t ∧ t.st = .idle ∧ (t.input.rst = false → t.cmdReady = true))

/-- R138: in IDLE the line is 0, and without an accepted word the state does not change, for ever. -/
def Obligations.IdleWaitsForEver : Prop :=
  ∀ s : State, s.st = .idle → s.line = false ∧
    ∀ n, s.noReset n → s.noWord n → cycles n s = .next { s with inputs := s.inputs.drop n }

/-- R122, R134, R139: the logical line level in SEND, in GAP and in IDLE; it does not depend on what is
offered. -/
def Obligations.LineIsActiveOnlyInTheActivePhase : Prop :=
  (∀ s : State, s.st = .send →
    s.line = decide (s.tcnt < if s.sh.getLsbD 7 then s.cfg.T_H1 else s.cfg.T_H0)) ∧
  (∀ s : State, s.st = .gap → s.line = false) ∧
  (∀ s : State, s.st ≠ .send → s.line = false) ∧
  (∀ (s : State) (is : List Input), ({ s with inputs := is } : State).line = s.line)

/-- R140: `dout = (line and not rst) XOR INV`; a pulse is the level `not INV`, the idle level is `INV`, and
while rst = 1 the pin is idle whatever the state. -/
def Obligations.PinFollowsLineAndPolarity : Prop :=
  (∀ s : State, s.dout = ((s.line && !s.input.rst) ^^ s.cfg.INV)) ∧
  (∀ s : State, s.input.rst = true → s.dout = s.cfg.INV) ∧
  (∀ s : State, s.line = false → s.dout = s.cfg.INV) ∧
  (∀ s : State, s.input.rst = false → s.line = true → s.dout = !s.cfg.INV)

/-- R131: the waveform of one bit from its first cycle on, with both of its phases non-empty; and the
default widths in seconds. -/
def Obligations.BitPeriodWaveform : Prop :=
  (∀ s : State, s.cfg.wf → s.st = .send → s.tcnt = 0 → s.noReset (s.cfg.T_BIT - 1) →
    (∀ c, c < s.cfg.T_BIT → ∃ t, cycles c s = .next t ∧
      t.line = decide (c < if s.sh.getLsbD 7 then s.cfg.T_H1 else s.cfg.T_H0)) ∧
    1 ≤ s.cfg.TH (s.sh.getLsbD 7) ∧ s.cfg.TH (s.sh.getLsbD 7) < s.cfg.T_BIT) ∧
  Config.defaults.seconds 6 = 375 / 10 ^ 9 ∧ Config.defaults.seconds 14 = 875 / 10 ^ 9 ∧
  Config.defaults.seconds 12 = 750 / 10 ^ 9 ∧ Config.defaults.seconds 8 = 500 / 10 ^ 9

/-- R132, R141: the timeline of a frame accepted in this cycle, with no reset in it; `D_FRAME` at the
defaults is 5600 cycles, 350 µs. -/
def Obligations.FrameTimeline : Prop :=
  (∀ (s : State) (F : Memory), s.cfg.wf → s.startsFrame F → s.noReset (s.cfg.D_FRAME + 1) →
    (s.st = .idle ∧ s.BUSY = false ∧ s.TX = false ∧ s.GAPF = false ∧ s.cmdReady = true) ∧
    (∀ n, 1 ≤ n → n ≤ 24 * s.cfg.N * s.cfg.T_BIT → ∃ t, cycles n s = .next t ∧
      t.st = .send ∧ t.BUSY = true ∧ t.TX = true ∧ t.GAPF = false ∧ t.cmdReady = false) ∧
    (∀ n, 24 * s.cfg.N * s.cfg.T_BIT + 1 ≤ n → n ≤ 24 * s.cfg.N * s.cfg.T_BIT + s.cfg.T_RESET →
      ∃ t, cycles n s = .next t ∧
        t.st = .gap ∧ t.BUSY = true ∧ t.TX = false ∧ t.GAPF = true ∧ t.cmdReady = false) ∧
    (∃ t, cycles (24 * s.cfg.N * s.cfg.T_BIT + s.cfg.T_RESET + 1) s = .next t ∧
      t.st = .idle ∧ t.BUSY = false ∧ t.TX = false ∧ t.GAPF = false ∧
      (t.input.rst = false → t.cmdReady = true))) ∧
  Config.defaults.D_FRAME = 5600 ∧ Config.defaults.seconds 5600 = 350 / 10 ^ 6

/-- R128, R142: the waveform of a frame that carries `F`, bit by bit and through its gap; bit `j` belongs to
LED `j div 24`, channel `(j mod 24) div 8` (green, red, blue). -/
def Obligations.FrameWaveform : Prop :=
  (∀ j : Nat, j / 8 = 3 * (j / 24) + j % 24 / 8) ∧
  ∀ (s : State) (F : Memory), s.cfg.wf → s.startsFrame F → s.noReset (s.cfg.D_FRAME + 1) →
    (∀ j c, j < 24 * s.cfg.N → c < s.cfg.T_BIT →
      let bit := (F.read (j / 8)).getLsbD (7 - j % 8)
      ∃ t, cycles (1 + j * s.cfg.T_BIT + c) s = .next t ∧
        t.line = decide (c < s.cfg.TH bit) ∧ t.dout = (decide (c < s.cfg.TH bit) ^^ s.cfg.INV)) ∧
    (∀ n, 24 * s.cfg.N * s.cfg.T_BIT + 1 ≤ n → n ≤ 24 * s.cfg.N * s.cfg.T_BIT + s.cfg.T_RESET →
      ∃ t, cycles n s = .next t ∧ t.line = false ∧ t.dout = s.cfg.INV)

/-- R144: within a frame `line` has one maximal run of 1s per bit, run `j` of length `TH(Bits(F)[j])`, so
the frame's bits are recovered from the waveform. -/
def Obligations.FrameBitsAreRecoveredFromTheLine : Prop :=
  ∀ (s : State) (F : Memory), s.cfg.wf → s.startsFrame F → s.noReset (s.cfg.D_FRAME + 1) →
    ∃ t, step s = .next t ∧
      runLengths (lineTrace s.cfg.D_FRAME t) =
        (List.range (24 * s.cfg.N)).map (fun j => s.cfg.TH (frameBit F j)) ∧
      recoverBits s.cfg (lineTrace s.cfg.D_FRAME t) = (List.range (24 * s.cfg.N)).map (frameBit F)

/-- R137: the line is idle for at least `(T_BIT − T_H1) + T_RESET + 1` cycles up to and including the first
IDLE cycle after a frame, whatever the host offers, and for `T_RESET + 1` cycles after a reset. -/
def Obligations.LineIsIdleBetweenFrames : Prop :=
  (∀ (s : State) (F : Memory), s.cfg.wf → s.startsFrame F → s.noReset (s.cfg.D_FRAME + 1) →
    ∀ n, s.cfg.D_FRAME + 1 < n + ((s.cfg.T_BIT - s.cfg.T_H1) + s.cfg.T_RESET + 1) →
      n ≤ s.cfg.D_FRAME + 1 → ∃ t, cycles n s = .next t ∧ t.line = false) ∧
  (∀ s : State, s.cfg.wf → s.input.rst = true → s.advance.noReset s.cfg.T_RESET →
    ∀ n, 1 ≤ n → n ≤ s.cfg.T_RESET + 1 → ∃ t, cycles n s = .next t ∧ t.line = false)

/-- A build whose gap meets the strip's latch time holds the line idle that long after the last bit of every
frame (70_reset_and_hazards.md R199, 00_scope.md R10).
On a build with `F_CLK = 0` a count lasts 0 seconds, which is the model's (notes/assumptions/19.md). -/
def Obligations.FrameGapMeetsTheLatchTime : Prop :=
  ∀ (s : State) (F : Memory), s.cfg.wf → s.cfg.latchMet → s.startsFrame F →
    s.noReset (s.cfg.D_FRAME + 1) →
    ∃ (latch : Rat) (m : Nat), s.cfg.T_LATCH_MIN = some latch ∧ latch ≤ s.cfg.seconds m ∧
      ∀ n, s.cfg.sendLen < n → n ≤ s.cfg.sendLen + m → ∃ t, cycles n s = .next t ∧ t.line = false

/-- R133: nothing but reset can stop, abort, pause or restart a frame: two hosts that offer different words
while the frame runs see the same states; a reset does truncate it. -/
def Obligations.NothingButResetDisturbsAFrame : Prop :=
  (∀ (s : State) (F : Memory) (is : List Input), s.cfg.wf → s.startsFrame F →
    s.noReset (s.cfg.D_FRAME + 1) →
    ({ s with inputs := s.input :: is } : State).noReset (s.cfg.D_FRAME + 1) →
    ∀ n, n ≤ s.cfg.D_FRAME + 1 →
      ∃ t t', cycles n s = .next t ∧ cycles n { s with inputs := s.input :: is } = .next t' ∧
        { t' with inputs := t.inputs } = t) ∧
  (∀ s : State, s.st = .send → s.input.rst = true → ∃ t, step s = .next t ∧ t.st = .gap)

/-- R143: if the host offers SHOW or CLEAR in every cycle, frames repeat every `D_FRAME + 1` cycles: 5601
cycles, 350.0625 µs, at the defaults; and no host, whatever it offers, has a frame accepted sooner than that
after the one before, unless a reset cuts it. -/
def Obligations.FramesRepeatEveryFramePeriod : Prop :=
  (∀ s : State, s.cfg.wf → s.st = .idle →
    (∀ i ∈ s.inputs, i.rst = false ∧ i.cmdValid = true ∧
      (decode i.cmdData = some .showFrame ∨ decode i.cmdData = some .clear)) →
    ∀ n, n < s.inputs.length →
      ∃ t, cycles n s = .next t ∧ (t.accepted = true ↔ n % (s.cfg.D_FRAME + 1) = 0)) ∧
  (∀ (s : State) (F : Memory), s.cfg.wf → s.startsFrame F → s.noReset (s.cfg.D_FRAME + 1) →
    ∀ n, 1 ≤ n → n < s.cfg.D_FRAME + 1 → ∃ t, cycles n s = .next t ∧ ∀ G, ¬ t.startsFrame G) ∧
  Config.defaults.D_FRAME + 1 = 5601 ∧ Config.defaults.seconds 5601 = 3500625 / 10 ^ 10

/-- A SET_COLOR and the SHOW accepted in the next cycle put the colour on the line in wire order: LED `i`
carries `g`, `r`, `b`, each most significant bit first, and every other LED what FB held
(95_test_vectors.md S1; 40_frame_buffer.md R105, 41_protocol_encoder.md R128). -/
def Obligations.PaintedLedReachesTheLine : Prop :=
  ∀ (s : State) (i : Nat) (r g b : Byte) (is : List Input), s.cfg.wf → s.FB.wf = true → s.st = .idle →
    i < s.cfg.N →
    s.inputs = ⟨false, true, encode (.setColor i r g b)⟩ :: ⟨false, true, encode .showFrame⟩ :: is →
    s.noReset (s.cfg.D_FRAME + 2) →
    ∀ j c, j < 24 * s.cfg.N → c < s.cfg.T_BIT →
      let byte := if j / 8 = 3 * i + 0 then g else if j / 8 = 3 * i + 1 then r
        else if j / 8 = 3 * i + 2 then b else s.FB.read (j / 8)
      ∃ t, cycles (2 + j * s.cfg.T_BIT + c) s = .next t ∧
        t.line = decide (c < s.cfg.TH (byte.getLsbD (7 - j % 8)))

/-! ### Reset (70_reset_and_hazards.md) -/

/-- R190: one or more cycles of rst = 1 leave ResetState, whatever the state (a power-up state among them)
and the other inputs; nothing is accepted in them and the pin is idle. -/
def Obligations.ResetFromEveryState : Prop :=
  (∀ (s : State) (k : Nat), 1 ≤ k → k ≤ s.inputs.length → (∀ i ∈ s.inputs.take k, i.rst = true) →
    cycles k s = .next
      { FB := [], st := .gap, ptr := 0, sh := 0x00#8, bitn := 7#3, tcnt := 0, ILL := false,
        cfg := s.cfg, inputs := s.inputs.drop k }) ∧
  (∀ s : State, s.input.rst = true →
    s.cmdReady = false ∧ s.accepted = false ∧ s.dout = s.cfg.INV)

/-- R193: the reset value of every piece of state and of every derived output; the build is unaffected. -/
def Obligations.ResetStateValues : Prop :=
  (∀ s : State,
    let t := resetEdge s
    (∀ a, t.FB.read a = 0x00#8) ∧ t.st = .gap ∧ t.ptr = 0 ∧ t.sh = 0x00#8 ∧ t.bitn = 7#3 ∧ t.tcnt = 0 ∧
      t.ILL = false ∧ t.status = 0x05#8 ∧ t.cmdReady = false ∧ t.dout = s.cfg.INV ∧ t.cfg = s.cfg) ∧
  State.reset = resetEdge State.reset

/-- R191: after a reset the block is in GAP for `T_RESET` cycles and in IDLE from the next one, the first in
which a command can be accepted. -/
def Obligations.EntryAfterReset : Prop :=
  ∀ s : State, s.cfg.wf → s.input.rst = true → s.advance.noReset s.cfg.T_RESET →
    (∀ n, 1 ≤ n → n ≤ s.cfg.T_RESET →
      ∃ t, cycles n s = .next t ∧ t.st = .gap ∧ t.cmdReady = false) ∧
    ∃ t, cycles (s.cfg.T_RESET + 1) s = .next t ∧ t.st = .idle ∧
      (t.input.rst = false → t.cmdReady = true)

/-! ### Invariants (10_state.md R30) -/

/-- The reset state of every legal build meets the invariant. -/
def Obligations.ResetStateMeetsTheInvariant : Prop :=
  State.reset.Inv ∧ ∀ s : State, s.cfg.wf → (resetEdge s).Inv

/-- Every step keeps the invariant: the build legal, the frame buffer canonical and within its `3·N` bytes,
and the counters and the shift register as R30 says.
That the canonical form and the bound of `ptr` outside SEND are kept is the model's own
(notes/assumptions/4.md). -/
def Obligations.StepKeepsTheInvariant : Prop :=
  ∀ s t : State, s.Inv → step s = .next t → t.Inv

/-- R30: every state reached from a reset, under any inputs, satisfies the spec's invariants. -/
def Obligations.ReachableStatesMeetTheSpecsInvariants : Prop :=
  ∀ (s t : State) (n : Nat), s.cfg.wf → s.input.rst = true → cycles (n + 1) s = .next t →
    (t.st = .idle → t.tcnt = 0) ∧
    (t.st = .send → t.tcnt ≤ t.cfg.T_BIT - 1 ∧ t.ptr ≤ 3 * t.cfg.N - 1 ∧
      t.sh.toNat = (t.FB.read t.ptr).toNat * 2 ^ (7 - t.bitn.toNat) % 256 ∧
      t.sh.getLsbD 7 = (t.FB.read t.ptr).getLsbD t.bitn.toNat) ∧
    (t.st = .gap → t.tcnt ≤ t.cfg.T_RESET - 1)

/-- R11: the derived widths are the smallest that hold their counters, and no counter of a state that meets
the invariant (`StepKeepsTheInvariant`) reaches its width's limit. -/
def Obligations.CountersFitTheirWidths : Prop :=
  (∀ s : State, s.Inv → s.ptr < 2 ^ s.cfg.PTR_W ∧ s.tcnt < 2 ^ s.cfg.TCNT_W) ∧
  (∀ c : Config, 1 ≤ c.PTR_W ∧ 3 * c.N ≤ 2 ^ c.PTR_W ∧
    ∀ w, 1 ≤ w → 3 * c.N ≤ 2 ^ w → c.PTR_W ≤ w) ∧
  (∀ c : Config, max c.T_BIT c.T_RESET < 2 ^ c.TCNT_W ∧
    ∀ w, max c.T_BIT c.T_RESET < 2 ^ w → c.TCNT_W ≤ w)

/-- R186: with rst = 0 every state that meets the invariant reaches IDLE within `D_FRAME` cycles, and a word
offered there is accepted in the same cycle. -/
def Obligations.IdleIsReachedWithinAFrame : Prop :=
  ∀ s : State, s.Inv → s.noReset s.cfg.D_FRAME →
    ∃ n t, n ≤ s.cfg.D_FRAME ∧ cycles n s = .next t ∧ t.st = .idle ∧
      (t.input.rst = false → t.input.cmdValid = true → t.accepted = true)

/-! ### The assembler and absolute times -/

/-- The words of the core lines: a `setcolor` operand out of range is refused, never reduced, and every
64-bit value can be written by `.word` (30_encoding.md R80).
That `.word` refuses a larger value is the model's choice (notes/assumptions/8.md). -/
def Obligations.AssemblerWords : Prop :=
  (∀ idx r g b : Nat, assembleCore (.setcolor idx r g b) = none ↔
    65535 < idx ∨ 255 < r ∨ 255 < g ∨ 255 < b) ∧
  (∀ (idx r g b : Nat) (w : Word), assembleCore (.setcolor idx r g b) = some w →
    w.toNat = 0x01 * 2 ^ 56 + idx * 2 ^ 32 + r * 2 ^ 16 + g * 2 ^ 8 + b) ∧
  assembleCore .nop = some 0x0000000000000000#64 ∧
  assembleCore .clear = some 0x0200000000000000#64 ∧
  assembleCore .showFrame = some 0x0300000000000000#64 ∧
  (∀ v : Nat, v < 2 ^ 64 → assembleCore (.word v) = some (BitVec.ofNat 64 v)) ∧
  (∀ v : Nat, 2 ^ 64 ≤ v → assembleCore (.word v) = none)

/-- R81: the pseudo-instructions expand to exactly these commands, for the build's `N`. -/
def Obligations.PseudoInstructionsExpand : Prop :=
  ∀ (N : Nat) (r g b : Byte), N ≤ 65536 →
    let fill := (List.range N).map fun i => encode (.setColor i r g b)
    assemble N .off = some [encode .clear] ∧
    assemble N (.fill r.toNat g.toNat b.toNat) = some fill ∧
    assemble N (.fillshow r.toNat g.toNat b.toNat) = some (fill ++ [encode .showFrame]) ∧
    ∀ i, i < 65536 → assemble N (.paint i r.toNat g.toNat b.toNat) =
      some [encode (.setColor i r g b), encode .showFrame]

/-- The words of `fill`, offered one a cycle from IDLE, are accepted one a cycle and leave every LED at the
colour (30_encoding.md R81, 20_memory.md R58). -/
def Obligations.FillPaintsEveryLed : Prop :=
  ∀ (s : State) (r g b : Byte) (is : List Input), s.cfg.wf → s.FB.wf = true → s.st = .idle →
    s.inputs = ((List.range s.cfg.N).map fun i => ⟨false, true, encode (.setColor i r g b)⟩) ++ is →
    ∃ m : Memory, cycles s.cfg.N s = .next { s with FB := m, inputs := is } ∧
      (∀ i, i < s.cfg.N → m.read (3 * i + 0) = g ∧ m.read (3 * i + 1) = r ∧ m.read (3 * i + 2) = b) ∧
      ∀ a, 3 * s.cfg.N ≤ a → m.read a = s.FB.read a

/-- R203: the absolute times at the default parameters. -/
def Obligations.DefaultTimes : Prop :=
  Config.defaults.seconds Config.defaults.T_BIT = 1250 / 10 ^ 9 ∧
  Config.defaults.seconds Config.defaults.T_H0 = 375 / 10 ^ 9 ∧
  Config.defaults.seconds (Config.defaults.T_BIT - Config.defaults.T_H0) = 875 / 10 ^ 9 ∧
  Config.defaults.seconds Config.defaults.T_H1 = 750 / 10 ^ 9 ∧
  Config.defaults.seconds (Config.defaults.T_BIT - Config.defaults.T_H1) = 500 / 10 ^ 9 ∧
  24 * Config.defaults.T_BIT = 480 ∧ Config.defaults.seconds 480 = 30 / 10 ^ 6 ∧
  Config.defaults.T_RESET = 800 ∧ Config.defaults.seconds 800 = 50 / 10 ^ 6 ∧
  Config.defaults.D_FRAME = 5600 ∧ Config.defaults.seconds 5600 = 350 / 10 ^ 6 ∧
  Config.defaults.D_FRAME + 1 = 5601 ∧ Config.defaults.seconds 5601 = 3500625 / 10 ^ 10
end

