-- ==== Sys2Proof/Laws/Decode.lean ====
section
/-! SUPPORT. The fields of a command word and the word of its fields. -/

namespace Sys2Proof

section Fields

variable (op : BitVec 8) (idx : BitVec 16) (r g b : Byte)

@[simp] theorem opOf_cmdWord : opOf (cmdWord op idx r g b) = op := by
  apply BitVec.eq_of_getLsbD_eq
  intro i hi
  simp only [opOf, cmdWord, BitVec.getLsbD_extractLsb', BitVec.getLsbD_append, hi, decide_true,
    Bool.true_and]
  repeat (rw [if_neg (by omega)])
  congr 1; omega

@[simp] theorem rsv1Of_cmdWord : rsv1Of (cmdWord op idx r g b) = 0#8 := by
  apply BitVec.eq_of_getLsbD_eq
  intro i hi
  simp only [rsv1Of, cmdWord, BitVec.getLsbD_extractLsb', BitVec.getLsbD_append, hi, decide_true,
    Bool.true_and]
  rw [if_pos (by omega)]
  repeat (rw [if_neg (by omega)])
  simp

@[simp] theorem idxOf_cmdWord : idxOf (cmdWord op idx r g b) = idx := by
  apply BitVec.eq_of_getLsbD_eq
  intro i hi
  simp only [idxOf, cmdWord, BitVec.getLsbD_extractLsb', BitVec.getLsbD_append, hi, decide_true,
    Bool.true_and]
  rw [if_pos (by omega), if_pos (by omega)]
  repeat (rw [if_neg (by omega)])
  congr 1; omega

@[simp] theorem rsv0Of_cmdWord : rsv0Of (cmdWord op idx r g b) = 0#8 := by
  apply BitVec.eq_of_getLsbD_eq
  intro i hi
  simp only [rsv0Of, cmdWord, BitVec.getLsbD_extractLsb', BitVec.getLsbD_append, hi, decide_true,
    Bool.true_and]
  rw [if_pos (by omega), if_pos (by omega), if_pos (by omega)]
  repeat (rw [if_neg (by omega)])
  simp

@[simp] theorem redOf_cmdWord : redOf (cmdWord op idx r g b) = r := by
  apply BitVec.eq_of_getLsbD_eq
  intro i hi
  simp only [redOf, cmdWord, BitVec.getLsbD_extractLsb', BitVec.getLsbD_append, hi, decide_true,
    Bool.true_and]
  rw [if_pos (by omega), if_pos (by omega), if_pos (by omega), if_pos (by omega)]
  repeat (rw [if_neg (by omega)])
  congr 1; omega

@[simp] theorem greenOf_cmdWord : greenOf (cmdWord op idx r g b) = g := by
  apply BitVec.eq_of_getLsbD_eq
  intro i hi
  simp only [greenOf, cmdWord, BitVec.getLsbD_extractLsb', BitVec.getLsbD_append, hi, decide_true,
    Bool.true_and]
  rw [if_pos (by omega), if_pos (by omega), if_pos (by omega), if_pos (by omega), if_pos (by omega)]
  repeat (rw [if_neg (by omega)])
  congr 1; omega

@[simp] theorem blueOf_cmdWord : blueOf (cmdWord op idx r g b) = b := by
  apply BitVec.eq_of_getLsbD_eq
  intro i hi
  simp only [blueOf, cmdWord, BitVec.getLsbD_extractLsb', BitVec.getLsbD_append, hi, decide_true,
    Bool.true_and]
  rw [if_pos (by omega), if_pos (by omega), if_pos (by omega), if_pos (by omega), if_pos (by omega),
    if_pos (by omega)]
  congr 1; omega

end Fields

/-- A word whose reserved fields are zero is the word of its fields. -/
theorem cmdWord_fields {w : Word} (h1 : rsv1Of w = 0#8) (h0 : rsv0Of w = 0#8) :
    cmdWord (opOf w) (idxOf w) (redOf w) (greenOf w) (blueOf w) = w := by
  have e : cmdWord (opOf w) (idxOf w) (redOf w) (greenOf w) (blueOf w) =
      opOf w ++ (rsv1Of w ++ (idxOf w ++ (rsv0Of w ++ (redOf w ++ (greenOf w ++ blueOf w))))) := by
    rw [h1, h0]; rfl
  rw [e]
  apply BitVec.eq_of_getLsbD_eq
  intro i hi
  simp only [opOf, rsv1Of, idxOf, rsv0Of, redOf, greenOf, blueOf, BitVec.getLsbD_append,
    BitVec.getLsbD_extractLsb']
  repeat' split
  all_goals
    rw [decide_eq_true (by omega), Bool.true_and]
    congr 1; omega

/-- The bits below OP are zero just when each field below OP is. -/
theorem belowOp_eq_zero_iff {w : Word} :
    belowOp w = 0#56 ↔ rsv1Of w = 0#8 ∧ idxOf w = 0#16 ∧ rsv0Of w = 0#8 ∧ redOf w = 0#8 ∧
      greenOf w = 0#8 ∧ blueOf w = 0#8 := by
  constructor
  · intro h
    have hb : ∀ j, j < 56 → w.getLsbD j = false := fun j hj => by
      have := congrArg (fun v => v.getLsbD j) h
      simpa [belowOp, hj] using this
    refine ⟨?_, ?_, ?_, ?_, ?_, ?_⟩ <;> apply BitVec.eq_of_getLsbD_eq <;> intro i hi <;>
      simp [rsv1Of, idxOf, rsv0Of, redOf, greenOf, blueOf] <;> intro _ <;> exact hb _ (by omega)
  · rintro ⟨h1, h2, h3, h4, h5, h6⟩
    have hw := cmdWord_fields h1 h3
    rw [h2, h4, h5, h6] at hw
    apply BitVec.eq_of_getLsbD_eq
    intro i hi
    rw [← hw]
    simp only [belowOp, cmdWord, BitVec.getLsbD_extractLsb', BitVec.getLsbD_append]
    repeat' split
    all_goals simp_all

/-- A word with nothing below OP is the word of its OP. -/
theorem cmdWord_of_belowOp {w : Word} (h : belowOp w = 0#56) :
    cmdWord (opOf w) 0#16 0#8 0#8 0#8 = w := by
  obtain ⟨h1, h2, h3, h4, h5, h6⟩ := belowOp_eq_zero_iff.1 h
  have hw := cmdWord_fields h1 h3
  rwa [h2, h4, h5, h6] at hw

/-- The number of two words side by side. -/
theorem toNat_append_eq {m n : Nat} (x : BitVec m) (y : BitVec n) :
    (x ++ y).toNat = x.toNat * 2 ^ n + y.toNat := by
  rw [BitVec.toNat_append, ← Nat.shiftLeft_add_eq_or_of_lt y.isLt, Nat.shiftLeft_eq]

/-- A command word as a number: each field at its place (R71). -/
theorem toNat_cmdWord (op : BitVec 8) (idx : BitVec 16) (r g b : Byte) :
    (cmdWord op idx r g b).toNat =
      op.toNat * 2 ^ 56 + idx.toNat * 2 ^ 32 + r.toNat * 2 ^ 16 + g.toNat * 2 ^ 8 + b.toNat := by
  have h1 := toNat_append_eq g b
  have h2 := toNat_append_eq r (g ++ b)
  have h3 := toNat_append_eq 0#8 (r ++ (g ++ b))
  have h4 := toNat_append_eq idx (0#8 ++ (r ++ (g ++ b)))
  have h5 := toNat_append_eq 0#8 (idx ++ (0#8 ++ (r ++ (g ++ b))))
  have h6 := toNat_append_eq op (0#8 ++ (idx ++ (0#8 ++ (r ++ (g ++ b)))))
  rw [h5, h4, h3, h2, h1] at h6
  refine Eq.trans h6 ?_
  simp only [BitVec.toNat_ofNat]
  omega

/-- A word matches the row of SET_COLOR just when its fixed fields have their values. -/
theorem and_setColorMask_iff {w : Word} :
    w &&& 0xFFFF0000FF000000#64 = 0x0100000000000000#64 ↔
      opOf w = 0x01#8 ∧ rsv1Of w = 0#8 ∧ rsv0Of w = 0#8 := by
  constructor
  · intro h
    refine ⟨?_, ?_, ?_⟩ <;> apply BitVec.eq_of_getLsbD_eq <;> intro i hi
    · have := congrArg (fun v => v.getLsbD (56 + i)) h
      interval_cases i <;> simpa [opOf] using this
    · have := congrArg (fun v => v.getLsbD (48 + i)) h
      interval_cases i <;> simpa [rsv1Of] using this
    · have := congrArg (fun v => v.getLsbD (24 + i)) h
      interval_cases i <;> simpa [rsv0Of] using this
  · rintro ⟨ho, h1, h0⟩
    rw [← cmdWord_fields h1 h0, ho]
    apply BitVec.eq_of_getLsbD_eq
    intro i hi
    rw [BitVec.getLsbD_and]
    simp only [cmdWord, BitVec.getLsbD_append]
    interval_cases i <;> simp

end Sys2Proof
end

