-- ==== Sys2Proof/Laws/Flags.lean ====
section
/-! SUPPORT. The flags, the handshake and the line as propositions about the state. -/

namespace Sys2Proof.Machine

@[simp] theorem BUSY_iff {s : State} : s.BUSY = true ↔ s.st ≠ .idle := by simp [State.BUSY]

@[simp] theorem TX_iff {s : State} : s.TX = true ↔ s.st = .send := by simp [State.TX]

@[simp] theorem GAPF_iff {s : State} : s.GAPF = true ↔ s.st = .gap := by simp [State.GAPF]

@[simp] theorem cmdReady_iff {s : State} : s.cmdReady = true ↔ s.st = .idle ∧ s.input.rst = false := by
  simp [State.cmdReady]

theorem BUSY_false_iff {s : State} : s.BUSY = false ↔ s.st = .idle := by simp [State.BUSY]

theorem TX_false_iff {s : State} : s.TX = false ↔ s.st ≠ .send := by simp [State.TX]

theorem GAPF_false_iff {s : State} : s.GAPF = false ↔ s.st ≠ .gap := by simp [State.GAPF]

theorem cmdReady_false_of_busy {s : State} (h : s.st ≠ .idle) : s.cmdReady = false := by
  simp [State.cmdReady, h]

theorem line_of_send {s : State} (h : s.st = .send) : s.line = decide (s.tcnt < s.cfg.TH s.curBit) := by
  simp [State.line, h]

theorem line_of_not_send {s : State} (h : s.st ≠ .send) : s.line = false := by
  simp [State.line, h]

end Sys2Proof.Machine
end

