-- ==== Sys2Proof/Laws/Memory.lean ====
section
/-! SUPPORT. The laws of the frame buffer: the canonical form is kept, a read after a write, and the
bounds of the cells. -/

namespace Sys2Proof.Machine

@[simp] theorem Memory.read_nil (a : Nat) : Memory.read [] a = 0x00#8 := rfl

theorem Memory.wfFrom_cons {lo a : Nat} {v : Byte} {m : Memory} :
    Memory.wfFrom lo ((a, v) :: m) = true ↔ lo ≤ a ∧ v ≠ unlistedByte ∧ Memory.wfFrom (a + 1) m = true := by
  simp [Memory.wfFrom, and_assoc]

theorem Memory.wfFrom_mono {lo lo' : Nat} {m : Memory} (h : lo ≤ lo') (hm : Memory.wfFrom lo' m = true) :
    Memory.wfFrom lo m = true := by
  cases m with
  | nil => rfl
  | cons c m =>
    obtain ⟨a, v⟩ := c
    rw [Memory.wfFrom_cons] at hm ⊢
    exact ⟨by omega, hm.2⟩

/-- An offset below every cell reads as an unlisted one. -/
theorem Memory.read_of_wfFrom {lo a : Nat} {m : Memory} (hm : Memory.wfFrom lo m = true) (h : a < lo) :
    m.read a = unlistedByte := by
  induction m generalizing lo with
  | nil => rfl
  | cons c m ih =>
    obtain ⟨b, v⟩ := c
    rw [Memory.wfFrom_cons] at hm
    have hb : b ≠ a := by omega
    simpa [Memory.read, hb] using ih hm.2.2 (by omega)

/-- A write leaves every other offset alone; this needs no canonical form. -/
theorem Memory.read_write_other {m : Memory} {a b : Nat} {v : Byte} (h : b ≠ a) :
    (m.write a v).read b = m.read b := by
  induction m with
  | nil => unfold Memory.write; split <;> simp [Memory.read, h.symm]
  | cons c m ih =>
    obtain ⟨d, w⟩ := c
    unfold Memory.write
    split
    · split <;> simp [Memory.read, h.symm]
    · split
      · subst a; split <;> simp [Memory.read, h.symm]
      · simp [Memory.read, ih]

theorem Memory.read_write_same_from {lo : Nat} {m : Memory} {a : Nat} {v : Byte}
    (hm : Memory.wfFrom lo m = true) : (m.write a v).read a = v := by
  induction m generalizing lo with
  | nil => unfold Memory.write; split <;> simp_all [Memory.read]
  | cons c m ih =>
    obtain ⟨d, w⟩ := c
    rw [Memory.wfFrom_cons] at hm
    unfold Memory.write
    split
    · rename_i had
      split
      · subst v
        have hd : d ≠ a := by omega
        simpa [Memory.read, hd] using Memory.read_of_wfFrom hm.2.2 (by omega)
      · simp [Memory.read]
    · split
      · subst a
        split
        · subst v
          exact Memory.read_of_wfFrom hm.2.2 (by omega)
        · simp [Memory.read]
      · rename_i hne
        simpa [Memory.read, Ne.symm hne] using ih hm.2.2

/-- A read after a write to the same offset gives the value written. -/
theorem Memory.read_write_same {m : Memory} {a : Nat} {v : Byte} (hm : m.wf = true) :
    (m.write a v).read a = v :=
  Memory.read_write_same_from hm

theorem Memory.write_wfFrom {lo : Nat} {m : Memory} {a : Nat} {v : Byte}
    (hm : Memory.wfFrom lo m = true) (ha : lo ≤ a) : Memory.wfFrom lo (m.write a v) = true := by
  induction m generalizing lo with
  | nil =>
    unfold Memory.write
    split
    · rfl
    · rename_i hv
      simp [ha, hv, Memory.wfFrom]
  | cons c m ih =>
    obtain ⟨d, w⟩ := c
    rw [Memory.wfFrom_cons] at hm
    unfold Memory.write
    split
    · split
      · exact Memory.wfFrom_cons.2 hm
      · rename_i had hv
        exact Memory.wfFrom_cons.2 ⟨ha, hv, Memory.wfFrom_cons.2 ⟨by omega, hm.2⟩⟩
    · split
      · subst a
        split
        · exact Memory.wfFrom_mono (by omega) hm.2.2
        · rename_i hv
          exact Memory.wfFrom_cons.2 ⟨hm.1, hv, hm.2.2⟩
      · exact Memory.wfFrom_cons.2 ⟨hm.1, hm.2.1, ih hm.2.2 (by omega)⟩

/-- Every write keeps the canonical form. -/
theorem Memory.write_wf {m : Memory} {a : Nat} {v : Byte} (hm : m.wf = true) : (m.write a v).wf = true :=
  Memory.write_wfFrom hm (Nat.zero_le a)

@[simp] theorem Memory.wf_nil : Memory.wf [] = true := rfl

@[simp] theorem Memory.below_nil (n : Nat) : Memory.below [] n = true := rfl

theorem Memory.below_iff {m : Memory} {n : Nat} : m.below n = true ↔ ∀ c ∈ m, c.1 < n := by
  simp [Memory.below]

/-- A write below a bound keeps every cell below it. -/
theorem Memory.write_below {m : Memory} {a n : Nat} {v : Byte} (hm : m.below n = true) (ha : a < n) :
    (m.write a v).below n = true := by
  induction m with
  | nil => unfold Memory.write; split <;> simp [Memory.below_iff, ha]
  | cons c m ih =>
    obtain ⟨d, w⟩ := c
    simp only [Memory.below_iff, List.forall_mem_cons] at hm ih ⊢
    have ih := ih hm.2
    unfold Memory.write
    split
    · split
      · exact List.forall_mem_cons.2 hm
      · exact List.forall_mem_cons.2 ⟨ha, List.forall_mem_cons.2 hm⟩
    · split
      · split
        · exact hm.2
        · exact List.forall_mem_cons.2 ⟨ha, hm.2⟩
      · exact List.forall_mem_cons.2 ⟨hm.1, ih⟩

/-- Writing what an offset already reads as changes nothing. -/
theorem Memory.write_read_from {lo : Nat} {m : Memory} {a : Nat} (hm : Memory.wfFrom lo m = true) :
    m.write a (m.read a) = m := by
  induction m generalizing lo with
  | nil => simp [Memory.write, Memory.read]
  | cons c m ih =>
    obtain ⟨d, w⟩ := c
    rw [Memory.wfFrom_cons] at hm
    unfold Memory.write
    split
    · rename_i had
      have hd : d ≠ a := by omega
      have hr : Memory.read ((d, w) :: m) a = unlistedByte := by
        simpa [Memory.read, hd] using Memory.read_of_wfFrom hm.2.2 (by omega)
      simp [hr]
    · split
      · subst a; simp [Memory.read, hm.2.1]
      · rename_i hne
        simpa [Memory.read, Ne.symm hne] using ih hm.2.2

theorem Memory.write_read {m : Memory} {a : Nat} (hm : m.wf = true) : m.write a (m.read a) = m :=
  Memory.write_read_from hm

/-! ### A whole LED -/

theorem storeLed_wf {s : State} {i : Nat} {r g b : Byte} (h : s.FB.wf = true) :
    (s.storeLed i r g b).FB.wf = true :=
  Memory.write_wf (Memory.write_wf (Memory.write_wf h))

theorem storeLed_below {s : State} {i : Nat} {r g b : Byte} (h : s.FB.below s.cfg.fbSize = true)
    (hi : i < s.cfg.N) : (s.storeLed i r g b).FB.below s.cfg.fbSize = true := by
  have hlt : 3 * i + 2 < 3 * s.cfg.N := by omega
  refine Memory.write_below (Memory.write_below (Memory.write_below h ?_) ?_) ?_ <;>
    simp only [greenOffset, redOffset, blueOffset, Config.fbSize] <;> omega

/-- The three bytes of the stored LED, in wire order. -/
theorem storeLed_read_led {s : State} {i : Nat} {r g b : Byte} (h : s.FB.wf = true) :
    (s.storeLed i r g b).FB.read (greenOffset i) = g ∧ (s.storeLed i r g b).FB.read (redOffset i) = r ∧
      (s.storeLed i r g b).FB.read (blueOffset i) = b := by
  refine ⟨?_, ?_, Memory.read_write_same (Memory.write_wf (Memory.write_wf h))⟩
  · exact (Memory.read_write_other (by simp [greenOffset, blueOffset])).trans
      ((Memory.read_write_other (by simp [greenOffset, redOffset])).trans (Memory.read_write_same h))
  · exact (Memory.read_write_other (by simp [redOffset, blueOffset])).trans
      (Memory.read_write_same (Memory.write_wf h))

/-- Every byte outside the stored LED. -/
theorem storeLed_read_other {s : State} {i a : Nat} {r g b : Byte} (hg : a ≠ greenOffset i)
    (hr : a ≠ redOffset i) (hb : a ≠ blueOffset i) : (s.storeLed i r g b).FB.read a = s.FB.read a :=
  (Memory.read_write_other hb).trans ((Memory.read_write_other hr).trans (Memory.read_write_other hg))

end Sys2Proof.Machine
end

