-- ==== Sys2Proof/Laws/State.lean ====
section
/-! SUPPORT. One lemma per field per update of the state. -/

namespace Sys2Proof.Machine

/-! ### advance -/

@[simp] theorem advance_FB (s : State) :
    s.advance.FB = s.FB := rfl
@[simp] theorem advance_st (s : State) :
    s.advance.st = s.st := rfl
@[simp] theorem advance_ptr (s : State) :
    s.advance.ptr = s.ptr := rfl
@[simp] theorem advance_sh (s : State) :
    s.advance.sh = s.sh := rfl
@[simp] theorem advance_bitn (s : State) :
    s.advance.bitn = s.bitn := rfl
@[simp] theorem advance_tcnt (s : State) :
    s.advance.tcnt = s.tcnt := rfl
@[simp] theorem advance_ILL (s : State) :
    s.advance.ILL = s.ILL := rfl
@[simp] theorem advance_cfg (s : State) :
    s.advance.cfg = s.cfg := rfl
@[simp] theorem advance_inputs (s : State) :
    s.advance.inputs = s.inputs.tail := rfl

/-! ### writeFB -/

@[simp] theorem writeFB_FB (s : State) (a : Nat) (v : Byte) :
    (s.writeFB a v).FB = s.FB.write a v := rfl
@[simp] theorem writeFB_st (s : State) (a : Nat) (v : Byte) :
    (s.writeFB a v).st = s.st := rfl
@[simp] theorem writeFB_ptr (s : State) (a : Nat) (v : Byte) :
    (s.writeFB a v).ptr = s.ptr := rfl
@[simp] theorem writeFB_sh (s : State) (a : Nat) (v : Byte) :
    (s.writeFB a v).sh = s.sh := rfl
@[simp] theorem writeFB_bitn (s : State) (a : Nat) (v : Byte) :
    (s.writeFB a v).bitn = s.bitn := rfl
@[simp] theorem writeFB_tcnt (s : State) (a : Nat) (v : Byte) :
    (s.writeFB a v).tcnt = s.tcnt := rfl
@[simp] theorem writeFB_ILL (s : State) (a : Nat) (v : Byte) :
    (s.writeFB a v).ILL = s.ILL := rfl
@[simp] theorem writeFB_cfg (s : State) (a : Nat) (v : Byte) :
    (s.writeFB a v).cfg = s.cfg := rfl
@[simp] theorem writeFB_inputs (s : State) (a : Nat) (v : Byte) :
    (s.writeFB a v).inputs = s.inputs := rfl

/-! ### zeroFB -/

@[simp] theorem zeroFB_FB (s : State) :
    s.zeroFB.FB = [] := rfl
@[simp] theorem zeroFB_st (s : State) :
    s.zeroFB.st = s.st := rfl
@[simp] theorem zeroFB_ptr (s : State) :
    s.zeroFB.ptr = s.ptr := rfl
@[simp] theorem zeroFB_sh (s : State) :
    s.zeroFB.sh = s.sh := rfl
@[simp] theorem zeroFB_bitn (s : State) :
    s.zeroFB.bitn = s.bitn := rfl
@[simp] theorem zeroFB_tcnt (s : State) :
    s.zeroFB.tcnt = s.tcnt := rfl
@[simp] theorem zeroFB_ILL (s : State) :
    s.zeroFB.ILL = s.ILL := rfl
@[simp] theorem zeroFB_cfg (s : State) :
    s.zeroFB.cfg = s.cfg := rfl
@[simp] theorem zeroFB_inputs (s : State) :
    s.zeroFB.inputs = s.inputs := rfl

/-! ### storeLed -/

@[simp] theorem storeLed_FB (s : State) (i : Nat) (r g b : Byte) :
    (s.storeLed i r g b).FB = ((s.FB.write (greenOffset i) g).write (redOffset i) r).write (blueOffset i) b := rfl
@[simp] theorem storeLed_st (s : State) (i : Nat) (r g b : Byte) :
    (s.storeLed i r g b).st = s.st := rfl
@[simp] theorem storeLed_ptr (s : State) (i : Nat) (r g b : Byte) :
    (s.storeLed i r g b).ptr = s.ptr := rfl
@[simp] theorem storeLed_sh (s : State) (i : Nat) (r g b : Byte) :
    (s.storeLed i r g b).sh = s.sh := rfl
@[simp] theorem storeLed_bitn (s : State) (i : Nat) (r g b : Byte) :
    (s.storeLed i r g b).bitn = s.bitn := rfl
@[simp] theorem storeLed_tcnt (s : State) (i : Nat) (r g b : Byte) :
    (s.storeLed i r g b).tcnt = s.tcnt := rfl
@[simp] theorem storeLed_ILL (s : State) (i : Nat) (r g b : Byte) :
    (s.storeLed i r g b).ILL = s.ILL := rfl
@[simp] theorem storeLed_cfg (s : State) (i : Nat) (r g b : Byte) :
    (s.storeLed i r g b).cfg = s.cfg := rfl
@[simp] theorem storeLed_inputs (s : State) (i : Nat) (r g b : Byte) :
    (s.storeLed i r g b).inputs = s.inputs := rfl

/-! ### startFrame -/

@[simp] theorem startFrame_FB (b0 : Byte) (s : State) :
    (startFrame b0 s).FB = s.FB := rfl
@[simp] theorem startFrame_st (b0 : Byte) (s : State) :
    (startFrame b0 s).st = .send := rfl
@[simp] theorem startFrame_ptr (b0 : Byte) (s : State) :
    (startFrame b0 s).ptr = 0 := rfl
@[simp] theorem startFrame_sh (b0 : Byte) (s : State) :
    (startFrame b0 s).sh = b0 := rfl
@[simp] theorem startFrame_bitn (b0 : Byte) (s : State) :
    (startFrame b0 s).bitn = 7#3 := rfl
@[simp] theorem startFrame_tcnt (b0 : Byte) (s : State) :
    (startFrame b0 s).tcnt = 0 := rfl
@[simp] theorem startFrame_ILL (b0 : Byte) (s : State) :
    (startFrame b0 s).ILL = s.ILL := rfl
@[simp] theorem startFrame_cfg (b0 : Byte) (s : State) :
    (startFrame b0 s).cfg = s.cfg := rfl
@[simp] theorem startFrame_inputs (b0 : Byte) (s : State) :
    (startFrame b0 s).inputs = s.inputs := rfl

/-! ### raiseIllegalCommand -/

@[simp] theorem raiseIllegalCommand_FB (s : State) :
    (raiseIllegalCommand s).FB = s.FB := rfl
@[simp] theorem raiseIllegalCommand_st (s : State) :
    (raiseIllegalCommand s).st = s.st := rfl
@[simp] theorem raiseIllegalCommand_ptr (s : State) :
    (raiseIllegalCommand s).ptr = s.ptr := rfl
@[simp] theorem raiseIllegalCommand_sh (s : State) :
    (raiseIllegalCommand s).sh = s.sh := rfl
@[simp] theorem raiseIllegalCommand_bitn (s : State) :
    (raiseIllegalCommand s).bitn = s.bitn := rfl
@[simp] theorem raiseIllegalCommand_tcnt (s : State) :
    (raiseIllegalCommand s).tcnt = s.tcnt := rfl
@[simp] theorem raiseIllegalCommand_ILL (s : State) :
    (raiseIllegalCommand s).ILL = true := rfl
@[simp] theorem raiseIllegalCommand_cfg (s : State) :
    (raiseIllegalCommand s).cfg = s.cfg := rfl
@[simp] theorem raiseIllegalCommand_inputs (s : State) :
    (raiseIllegalCommand s).inputs = s.inputs := rfl

/-! ### resetEdge -/

@[simp] theorem resetEdge_FB (s : State) :
    (resetEdge s).FB = [] := rfl
@[simp] theorem resetEdge_st (s : State) :
    (resetEdge s).st = .gap := rfl
@[simp] theorem resetEdge_ptr (s : State) :
    (resetEdge s).ptr = 0 := rfl
@[simp] theorem resetEdge_sh (s : State) :
    (resetEdge s).sh = 0x00#8 := rfl
@[simp] theorem resetEdge_bitn (s : State) :
    (resetEdge s).bitn = 7#3 := rfl
@[simp] theorem resetEdge_tcnt (s : State) :
    (resetEdge s).tcnt = 0 := rfl
@[simp] theorem resetEdge_ILL (s : State) :
    (resetEdge s).ILL = false := rfl
@[simp] theorem resetEdge_cfg (s : State) :
    (resetEdge s).cfg = s.cfg := rfl
@[simp] theorem resetEdge_inputs (s : State) :
    (resetEdge s).inputs = s.inputs := rfl

/-! ### nextCycle -/

@[simp] theorem nextCycle_FB (s : State) :
    (nextCycle s).FB = s.FB := rfl
@[simp] theorem nextCycle_st (s : State) :
    (nextCycle s).st = s.st := rfl
@[simp] theorem nextCycle_ptr (s : State) :
    (nextCycle s).ptr = s.ptr := rfl
@[simp] theorem nextCycle_sh (s : State) :
    (nextCycle s).sh = s.sh := rfl
@[simp] theorem nextCycle_bitn (s : State) :
    (nextCycle s).bitn = s.bitn := rfl
@[simp] theorem nextCycle_tcnt (s : State) :
    (nextCycle s).tcnt = s.tcnt + 1 := rfl
@[simp] theorem nextCycle_ILL (s : State) :
    (nextCycle s).ILL = s.ILL := rfl
@[simp] theorem nextCycle_cfg (s : State) :
    (nextCycle s).cfg = s.cfg := rfl
@[simp] theorem nextCycle_inputs (s : State) :
    (nextCycle s).inputs = s.inputs := rfl

/-! ### nextBit -/

@[simp] theorem nextBit_FB (s : State) :
    (nextBit s).FB = s.FB := rfl
@[simp] theorem nextBit_st (s : State) :
    (nextBit s).st = s.st := rfl
@[simp] theorem nextBit_ptr (s : State) :
    (nextBit s).ptr = s.ptr := rfl
@[simp] theorem nextBit_sh (s : State) :
    (nextBit s).sh = s.sh <<< 1 := rfl
@[simp] theorem nextBit_bitn (s : State) :
    (nextBit s).bitn = s.bitn - 1#3 := rfl
@[simp] theorem nextBit_tcnt (s : State) :
    (nextBit s).tcnt = 0 := rfl
@[simp] theorem nextBit_ILL (s : State) :
    (nextBit s).ILL = s.ILL := rfl
@[simp] theorem nextBit_cfg (s : State) :
    (nextBit s).cfg = s.cfg := rfl
@[simp] theorem nextBit_inputs (s : State) :
    (nextBit s).inputs = s.inputs := rfl

/-! ### nextByte -/

@[simp] theorem nextByte_FB (b : Byte) (s : State) :
    (nextByte b s).FB = s.FB := rfl
@[simp] theorem nextByte_st (b : Byte) (s : State) :
    (nextByte b s).st = s.st := rfl
@[simp] theorem nextByte_ptr (b : Byte) (s : State) :
    (nextByte b s).ptr = s.ptr + 1 := rfl
@[simp] theorem nextByte_sh (b : Byte) (s : State) :
    (nextByte b s).sh = b := rfl
@[simp] theorem nextByte_bitn (b : Byte) (s : State) :
    (nextByte b s).bitn = 7#3 := rfl
@[simp] theorem nextByte_tcnt (b : Byte) (s : State) :
    (nextByte b s).tcnt = 0 := rfl
@[simp] theorem nextByte_ILL (b : Byte) (s : State) :
    (nextByte b s).ILL = s.ILL := rfl
@[simp] theorem nextByte_cfg (b : Byte) (s : State) :
    (nextByte b s).cfg = s.cfg := rfl
@[simp] theorem nextByte_inputs (b : Byte) (s : State) :
    (nextByte b s).inputs = s.inputs := rfl

/-! ### endSend -/

@[simp] theorem endSend_FB (s : State) :
    (endSend s).FB = s.FB := rfl
@[simp] theorem endSend_st (s : State) :
    (endSend s).st = .gap := rfl
@[simp] theorem endSend_ptr (s : State) :
    (endSend s).ptr = s.ptr := rfl
@[simp] theorem endSend_sh (s : State) :
    (endSend s).sh = s.sh := rfl
@[simp] theorem endSend_bitn (s : State) :
    (endSend s).bitn = s.bitn := rfl
@[simp] theorem endSend_tcnt (s : State) :
    (endSend s).tcnt = 0 := rfl
@[simp] theorem endSend_ILL (s : State) :
    (endSend s).ILL = s.ILL := rfl
@[simp] theorem endSend_cfg (s : State) :
    (endSend s).cfg = s.cfg := rfl
@[simp] theorem endSend_inputs (s : State) :
    (endSend s).inputs = s.inputs := rfl

/-! ### endGap -/

@[simp] theorem endGap_FB (s : State) :
    (endGap s).FB = s.FB := rfl
@[simp] theorem endGap_st (s : State) :
    (endGap s).st = .idle := rfl
@[simp] theorem endGap_ptr (s : State) :
    (endGap s).ptr = s.ptr := rfl
@[simp] theorem endGap_sh (s : State) :
    (endGap s).sh = s.sh := rfl
@[simp] theorem endGap_bitn (s : State) :
    (endGap s).bitn = s.bitn := rfl
@[simp] theorem endGap_tcnt (s : State) :
    (endGap s).tcnt = 0 := rfl
@[simp] theorem endGap_ILL (s : State) :
    (endGap s).ILL = s.ILL := rfl
@[simp] theorem endGap_cfg (s : State) :
    (endGap s).cfg = s.cfg := rfl
@[simp] theorem endGap_inputs (s : State) :
    (endGap s).inputs = s.inputs := rfl

end Sys2Proof.Machine
end

