-- ==== Sys2Proof/Laws/Step.lean ====
section
/-! SUPPORT. What each shared operation and the cycle can do, said once. -/

namespace Sys2Proof.Machine

theorem readFB_of_lt {s : State} {a : Nat} {k : Byte → Result} (h : a < s.cfg.fbSize) :
    readFB s a k = k (s.FB.read a) := if_pos h

/-- The serializer's step answers a next state in every state, and these are its cases. -/
theorem sendStep_cases (s : State) :
    (s.tcnt < s.cfg.T_BIT - 1 ∧ sendStep s = .next (nextCycle s)) ∨
    (¬ s.tcnt < s.cfg.T_BIT - 1 ∧ 0#3 < s.bitn ∧ sendStep s = .next (nextBit s)) ∨
    (¬ s.tcnt < s.cfg.T_BIT - 1 ∧ s.bitn = 0#3 ∧ s.ptr < s.cfg.fbSize - 1 ∧
      sendStep s = .next (nextByte (s.FB.read (s.ptr + 1)) s)) ∨
    (¬ s.tcnt < s.cfg.T_BIT - 1 ∧ s.bitn = 0#3 ∧ ¬ s.ptr < s.cfg.fbSize - 1 ∧
      sendStep s = .next (endSend s)) := by
  have hz : ¬ 0#3 < s.bitn → s.bitn = 0#3 := fun h => by
    apply BitVec.eq_of_toNat_eq
    simpa [BitVec.lt_def] using h
  by_cases h1 : s.tcnt < s.cfg.T_BIT - 1
  · exact .inl ⟨h1, by simp [sendStep, h1]⟩
  by_cases h2 : 0#3 < s.bitn
  · exact .inr (.inl ⟨h1, h2, by simp [sendStep, h1, h2]⟩)
  by_cases h3 : s.ptr < s.cfg.fbSize - 1
  · refine .inr (.inr (.inl ⟨h1, hz h2, h3, ?_⟩))
    have h4 : s.ptr + 1 < s.cfg.fbSize := by omega
    simp [sendStep, h1, h2, h3, readFB, h4]
  · exact .inr (.inr (.inr ⟨h1, hz h2, h3, by simp [sendStep, h1, h2, h3]⟩))

/-- The cases of the reset-gap timer. -/
theorem gapStep_cases (s : State) :
    (s.tcnt < s.cfg.T_RESET - 1 ∧ gapStep s = nextCycle s) ∨
    (¬ s.tcnt < s.cfg.T_RESET - 1 ∧ gapStep s = endGap s) := by
  by_cases h : s.tcnt < s.cfg.T_RESET - 1
  · exact .inl ⟨h, if_pos h⟩
  · exact .inr ⟨h, if_neg h⟩

/-- What an accepted word can do, if it answers a next state. -/
theorem runWord_cases {w : Word} {s t : State} (h : runWord w s = .next t) :
    (decode w = none ∧ t = raiseIllegalCommand s) ∨
    (decode w = some .nop ∧ t = s) ∨
    (∃ idx r g b, decode w = some (.setColor idx r g b) ∧
      (idx < s.cfg.N ∧ t = s.storeLed idx r g b ∨ ¬ idx < s.cfg.N ∧ t = s)) ∨
    (decode w = some .clear ∧ t = startFrame 0x00#8 s.zeroFB) ∨
    (decode w = some .showFrame ∧ 0 < s.cfg.fbSize ∧ t = startFrame (s.FB.read 0) s) := by
  unfold runWord at h
  cases hd : decode w with
  | none =>
    rw [hd] at h
    exact .inl ⟨rfl, by simpa [execIllegal] using h.symm⟩
  | some i =>
    rw [hd] at h
    cases i with
    | nop => exact .inr (.inl ⟨rfl, by simpa [exec, execNop] using h.symm⟩)
    | setColor idx r g b =>
      refine .inr (.inr (.inl ⟨idx, r, g, b, rfl, ?_⟩))
      by_cases hi : idx < s.cfg.N
      · exact .inl ⟨hi, by simpa [exec, execSetColor, State.inRange, hi] using h.symm⟩
      · exact .inr ⟨hi, by simpa [exec, execSetColor, State.inRange, hi] using h.symm⟩
    | clear => exact .inr (.inr (.inr (.inl ⟨rfl, by simpa [exec, execClear] using h.symm⟩)))
    | showFrame =>
      refine .inr (.inr (.inr (.inr ⟨rfl, ?_⟩)))
      by_cases h0 : 0 < s.cfg.fbSize
      · exact ⟨h0, by simpa [exec, execShow, readFB, h0] using h.symm⟩
      · simp [exec, execShow, readFB, h0] at h

/-- Everything a cycle can do, if it answers a next state. -/
theorem cycle_cases {inp : Input} {s t : State} (h : cycle inp s = .next t) :
    (inp.rst = true ∧ t = resetEdge s) ∨
    (inp.rst = false ∧ s.st = .idle ∧ inp.cmdValid = false ∧ t = s) ∨
    (inp.rst = false ∧ s.st = .idle ∧ inp.cmdValid = true ∧ runWord inp.cmdData s = .next t) ∨
    (inp.rst = false ∧ s.st = .send ∧ sendStep s = .next t) ∨
    (inp.rst = false ∧ s.st = .gap ∧ t = gapStep s) := by
  unfold cycle at h
  cases hr : inp.rst with
  | true => exact .inl ⟨rfl, by simpa [hr] using h.symm⟩
  | false =>
    simp only [hr, Bool.false_eq_true, if_false] at h
    cases hs : s.st with
    | idle =>
      rw [hs] at h
      cases hv : inp.cmdValid with
      | true => exact .inr (.inr (.inl ⟨rfl, rfl, rfl, by simpa [hv] using h⟩))
      | false => exact .inr (.inl ⟨rfl, rfl, rfl, by simpa [hv] using h.symm⟩)
    | send => rw [hs] at h; exact .inr (.inr (.inr (.inl ⟨rfl, rfl, h⟩)))
    | gap => rw [hs] at h; exact .inr (.inr (.inr (.inr ⟨rfl, rfl, by simpa using h.symm⟩)))

/-! ### The cycle by its cases -/

theorem cycle_reset {inp : Input} {s : State} (h : inp.rst = true) : cycle inp s = .next (resetEdge s) := by
  simp [cycle, h]

theorem cycle_quiet {inp : Input} {s : State} (hr : inp.rst = false) (hs : s.st = .idle)
    (hv : inp.cmdValid = false) : cycle inp s = .next s := by
  simp [cycle, hr, hs, hv]

theorem cycle_word {inp : Input} {s : State} (hr : inp.rst = false) (hs : s.st = .idle)
    (hv : inp.cmdValid = true) : cycle inp s = runWord inp.cmdData s := by
  simp [cycle, hr, hs, hv]

theorem cycle_send {inp : Input} {s : State} (hr : inp.rst = false) (hs : s.st = .send) :
    cycle inp s = sendStep s := by
  simp [cycle, hr, hs]

theorem cycle_gap {inp : Input} {s : State} (hr : inp.rst = false) (hs : s.st = .gap) :
    cycle inp s = .next (gapStep s) := by
  simp [cycle, hr, hs]

/-- A step in SEND is the serializer's, whatever is offered. -/
theorem step_send {s : State} (hr : s.input.rst = false) (hs : s.st = .send) :
    step s = sendStep s.advance :=
  cycle_send hr hs

/-- A step in GAP is the reset-gap timer's, whatever is offered. -/
theorem step_gap {s : State} (hr : s.input.rst = false) (hs : s.st = .gap) :
    step s = .next (gapStep s.advance) :=
  cycle_gap hr hs

theorem sendStep_mid {s : State} (h : s.tcnt < s.cfg.T_BIT - 1) : sendStep s = .next (nextCycle s) :=
  if_pos h

theorem gapStep_mid {s : State} (h : s.tcnt < s.cfg.T_RESET - 1) : gapStep s = nextCycle s := if_pos h

theorem gapStep_end {s : State} (h : ¬ s.tcnt < s.cfg.T_RESET - 1) : gapStep s = endGap s := if_neg h

/-- A word is accepted just in IDLE with `rst = 0` and a word offered. -/
theorem accepted_iff {s : State} :
    s.accepted = true ↔ s.input.cmdValid = true ∧ s.st = .idle ∧ s.input.rst = false := by
  simp [State.accepted, State.cmdReady]

end Sys2Proof.Machine
end

