-- ==== Sys2Proof/Laws/Run.lean ====
section
/-! SUPPORT. Runs of several cycles: their composition, and resets within them. -/

namespace Sys2Proof.Machine

@[simp] theorem cycles_zero (s : State) : cycles 0 s = .next s := rfl

theorem cycles_succ {n : Nat} {s t : State} (h : step s = .next t) : cycles (n + 1) s = cycles n t := by
  simp [cycles, h]

/-- A run of `m + n` cycles is a run of `m` and then one of `n`. -/
theorem cycles_add {m n : Nat} {s t : State} (h : cycles m s = .next t) :
    cycles (m + n) s = cycles n t := by
  induction m generalizing s with
  | zero =>
    obtain rfl : s = t := by simpa using h
    rw [Nat.zero_add]
  | succ m ih =>
    rw [Nat.succ_add]
    cases hs : step s with
    | next u =>
      rw [cycles_succ hs] at h ⊢
      exact ih h
    | fault r => simp [cycles, hs] at h
    | refused r => simp [cycles, hs] at h

theorem cycles_succ_last {n : Nat} {s t : State} (h : cycles n s = .next t) :
    cycles (n + 1) s = step t := by
  rw [cycles_add h]
  unfold cycles
  cases step t <;> rfl

/-- The model's run is the host's. -/
theorem cycles_eq_core_run (n : Nat) (s : State) : cycles n s = Sys2Proof.core.run n s := by
  induction n generalizing s with
  | zero => rfl
  | succ n ih =>
    cases hs : step s with
    | next t =>
      have e : Sys2Proof.core.step s = .next t := hs
      rw [cycles_succ hs, ih t]
      simp only [Host.Core.run, e]; rfl
    | fault r =>
      have e : Sys2Proof.core.step s = .fault r := hs
      simp only [cycles, Host.Core.run, hs, e]; rfl
    | refused r =>
      have e : Sys2Proof.core.step s = .refused r := hs
      simp only [cycles, Host.Core.run, hs, e]; rfl

theorem noReset_succ {s : State} {n : Nat} :
    s.noReset (n + 1) ↔ s.input.rst = false ∧ s.advance.noReset n := by
  unfold State.noReset State.input State.advance
  cases s.inputs with
  | nil => simp [Input.quiet]
  | cons i is => simp

theorem noReset_mono {s : State} {m n : Nat} (h : m ≤ n) (hn : s.noReset n) : s.noReset m :=
  fun i hi => hn i ((List.take_subset_take_left _ h) hi)

/-- Whether the next cycles hold a reset depends on the inputs alone. -/
theorem noReset_congr {s t : State} {n : Nat} (h : s.inputs = t.inputs) : s.noReset n ↔ t.noReset n := by
  simp [State.noReset, h]

end Sys2Proof.Machine
end

