-- ==== Sys2Proof/Laws/Frame.lean ====
section
/-! SUPPORT. Where a frame stands after a number of cycles: the serializer's position bit by bit, the gap,
and the first cycle of a frame. -/

namespace Sys2Proof.Machine

/-- The state `r` cycles into bit `q` of the frame whose first SEND cycle is `b`. -/
def bitPos (b : State) (q r : Nat) : State :=
  { b with
    ptr := q / 8
    sh := b.FB.read (q / 8) <<< (q % 8)
    bitn := BitVec.ofNat 3 (7 - q % 8)
    tcnt := r
    inputs := b.inputs.drop (q * b.cfg.T_BIT + r) }

/-- `b` is the first SEND cycle of a frame (41_protocol_encoder.md R121). -/
structure FirstCycle (b : State) : Prop where
  st : b.st = .send
  ptr : b.ptr = 0
  sh : b.sh = b.FB.read 0
  bitn : b.bitn = 7#3
  tcnt : b.tcnt = 0

theorem bitPos_zero {b : State} (h : FirstCycle b) : bitPos b 0 0 = b := by
  obtain ⟨h1, h2, h3, h4, h5⟩ := h
  cases b
  simp_all [bitPos]

/-- The bit on the line is bit `q` of the frame (R128). -/
theorem bitPos_curBit {b : State} {q r : Nat} : (bitPos b q r).curBit = frameBit b.FB q := by
  have h : ¬ 7 < q % 8 := by omega
  simp only [State.curBit, bitPos, frameBit, BitVec.getLsbD_shiftLeft]
  simp [h]

theorem bitPos_line {b : State} {q r : Nat} (h : b.st = .send) :
    (bitPos b q r).line = decide (r < b.cfg.TH (frameBit b.FB q)) := by
  rw [← bitPos_curBit (r := r)]
  simp [State.line, bitPos, h]

theorem bitPos_bitn {b : State} {q r : Nat} : (bitPos b q r).bitn.toNat = 7 - q % 8 := by
  simp only [bitPos, BitVec.toNat_ofNat]
  exact Nat.mod_eq_of_lt (by omega)

theorem advance_bitPos_inputs {b : State} {q r : Nat} :
    (bitPos b q r).advance.inputs = b.inputs.drop (q * b.cfg.T_BIT + r + 1) := by
  simp [bitPos, State.advance, List.tail_drop]

/-- Inside a bit period. -/
theorem step_bitPos_mid {b : State} {q r : Nat} (hs : b.st = .send) (hr : r + 1 < b.cfg.T_BIT)
    (hi : (bitPos b q r).input.rst = false) : step (bitPos b q r) = .next (bitPos b q (r + 1)) := by
  rw [step_send hi hs, sendStep_mid (show r < b.cfg.T_BIT - 1 by omega)]
  simp only [nextCycle, State.advance, bitPos, List.tail_drop]
  rw [Nat.add_assoc]

/-- From a bit to the next one, within a byte or into the next byte. -/
theorem step_bitPos_next {b : State} {q r : Nat} (hs : b.st = .send) (hr : r + 1 = b.cfg.T_BIT)
    (hq : q + 1 < 24 * b.cfg.N) (hi : (bitPos b q r).input.rst = false) :
    step (bitPos b q r) = .next (bitPos b (q + 1) 0) := by
  have hin : (bitPos b q r).advance.inputs = b.inputs.drop ((q + 1) * b.cfg.T_BIT + 0) := by
    rw [advance_bitPos_inputs, Nat.add_mul, Nat.one_mul, ← hr, Nat.add_assoc]; rfl
  have hbn : (bitPos b q r).advance.bitn.toNat = 7 - q % 8 := bitPos_bitn (b := b) (r := r)
  have hpt : (bitPos b q r).advance.ptr = q / 8 := rfl
  have hcfg : (bitPos b q r).advance.cfg.fbSize = 3 * b.cfg.N := rfl
  rw [step_send hi hs]
  rcases sendStep_cases (bitPos b q r).advance with ⟨h1, -⟩ | ⟨-, h2, e⟩ | ⟨-, h2, h3, e⟩ | ⟨-, h2, h3, -⟩
  · have : r < b.cfg.T_BIT - 1 := h1
    omega
  · have h7 : 0 < 7 - q % 8 := by have := BitVec.lt_def.1 h2; rwa [hbn] at this
    have e1 : (q + 1) / 8 = q / 8 := by omega
    have e2 : (q + 1) % 8 = q % 8 + 1 := by omega
    have e3 : (bitPos b q r).advance.bitn - 1#3 = BitVec.ofNat 3 (7 - (q % 8 + 1)) := by
      apply BitVec.eq_of_toNat_eq
      rw [BitVec.toNat_sub, hbn]
      simp only [BitVec.toNat_ofNat]
      omega
    rw [e]
    simp only [nextBit, e3, hin]
    simp only [State.advance, bitPos, e1, e2, BitVec.shiftLeft_add]
  · have h7 : q % 8 = 7 := by
      have := congrArg BitVec.toNat h2
      rw [hbn] at this
      simp at this
      omega
    have e1 : (q + 1) / 8 = q / 8 + 1 := by omega
    have e2 : (q + 1) % 8 = 0 := by omega
    rw [e]
    simp only [nextByte, hin]
    simp only [State.advance, bitPos, e1, e2, BitVec.shiftLeft_zero]
  · have h7 : q % 8 = 7 := by
      have := congrArg BitVec.toNat h2
      rw [hbn] at this
      simp at this
      omega
    rw [hpt, hcfg] at h3
    omega

/-- The end of the last bit of a frame. -/
theorem step_bitPos_last {b : State} {q r : Nat} (hs : b.st = .send) (hr : r + 1 = b.cfg.T_BIT)
    (hq : q + 1 = 24 * b.cfg.N) (hi : (bitPos b q r).input.rst = false) :
    step (bitPos b q r) = .next (endSend (bitPos b q r).advance) := by
  have hbn : (bitPos b q r).advance.bitn.toNat = 7 - q % 8 := bitPos_bitn (b := b) (r := r)
  rw [step_send hi hs]
  rcases sendStep_cases (bitPos b q r).advance with ⟨h1, -⟩ | ⟨-, h2, -⟩ | ⟨-, -, h3, -⟩ | ⟨-, -, -, e⟩
  · have : r < b.cfg.T_BIT - 1 := h1
    omega
  · have : 0 < 7 - q % 8 := by have := BitVec.lt_def.1 h2; rwa [hbn] at this
    omega
  · have : q / 8 < 3 * b.cfg.N - 1 := h3
    omega
  · exact e

/-- A run that meets no reset: the position's own cycle has none. -/
theorem input_of_noReset {b t : State} {n : Nat} (h : b.noReset (n + 1)) (ht : t.inputs = b.inputs.drop n) :
    t.input.rst = false := by
  unfold State.input
  rw [ht]
  cases hd : b.inputs.drop n with
  | nil => rfl
  | cons i is =>
    have hg : (b.inputs.take (n + 1))[n]? = some i := by
      rw [List.getElem?_take_of_lt (Nat.lt_succ_self n), ← List.head?_drop, hd]; rfl
    exact h i (List.mem_of_getElem? hg)

/-- The frame's position after `q` bits and `r` cycles. -/
theorem cycles_bitPos {b : State} (h : FirstCycle b) {q r : Nat} (hq : q < 24 * b.cfg.N)
    (hr : r < b.cfg.T_BIT) (hn : b.noReset (q * b.cfg.T_BIT + r)) :
    cycles (q * b.cfg.T_BIT + r) b = .next (bitPos b q r) := by
  induction q generalizing r with
  | zero =>
    rw [Nat.zero_mul, Nat.zero_add] at hn ⊢
    induction r with
    | zero => rw [bitPos_zero h, cycles_zero]
    | succ r ih =>
      rw [cycles_succ_last (ih (by omega) (noReset_mono (by omega) hn))]
      exact step_bitPos_mid h.st hr (input_of_noReset hn (by simp [bitPos]))
  | succ q ihq =>
    induction r with
    | zero =>
      have hT : 0 < b.cfg.T_BIT := by omega
      have e : (q + 1) * b.cfg.T_BIT + 0 = q * b.cfg.T_BIT + (b.cfg.T_BIT - 1) + 1 := by
        rw [Nat.add_mul]; omega
      rw [e] at hn ⊢
      rw [cycles_succ_last (ihq (by omega) (by omega) (noReset_mono (by omega) hn))]
      exact step_bitPos_next h.st (by omega) hq (input_of_noReset hn rfl)
    | succ r ih =>
      rw [← Nat.add_assoc] at hn ⊢
      rw [cycles_succ_last (ih (by omega) (noReset_mono (by omega) hn))]
      exact step_bitPos_mid h.st hr (input_of_noReset hn rfl)

/-- The first GAP cycle after the frame whose first SEND cycle is `b`. -/
def gapStart (b : State) : State :=
  endSend { bitPos b (24 * b.cfg.N - 1) (b.cfg.T_BIT - 1) with inputs := b.inputs.drop b.cfg.sendLen }

/-- SEND lasts `24·N·T_BIT` cycles (R132). -/
theorem cycles_gapStart {b : State} (h : FirstCycle b) (hc : b.cfg.wf) (hn : b.noReset b.cfg.sendLen) :
    cycles b.cfg.sendLen b = .next (gapStart b) := by
  obtain ⟨hN, -, hT, -⟩ := hc
  have e : b.cfg.sendLen = (24 * b.cfg.N - 1) * b.cfg.T_BIT + (b.cfg.T_BIT - 1) + 1 := by
    have : 24 * b.cfg.N = (24 * b.cfg.N - 1) + 1 := by omega
    rw [Config.sendLen]
    conv_lhs => rw [this, Nat.add_mul]
    omega
  have hn' := hn
  rw [e] at hn'
  conv_lhs => rw [e]
  rw [cycles_succ_last (cycles_bitPos h (by omega) (by omega) (noReset_mono (by omega) hn')),
    step_bitPos_last h.st (by omega) (by omega) (input_of_noReset hn' rfl)]
  have ei := advance_bitPos_inputs (b := b) (q := 24 * b.cfg.N - 1) (r := b.cfg.T_BIT - 1)
  rw [← e] at ei
  simp only [gapStart, endSend, ei]
  rfl

/-- The state `i` cycles after `s` within a gap. -/
def gapPos (s : State) (i : Nat) : State := { s with tcnt := s.tcnt + i, inputs := s.inputs.drop i }

/-- `i` cycles into a gap (R135). -/
theorem cycles_gap {s : State} (hs : s.st = .gap) {i : Nat} (hi : s.tcnt + i < s.cfg.T_RESET)
    (hn : s.noReset i) : cycles i s = .next (gapPos s i) := by
  induction i with
  | zero => rfl
  | succ i ih =>
    rw [cycles_succ_last (ih (by omega) (noReset_mono (by omega) hn)),
      step_gap (s := gapPos s i) (input_of_noReset hn rfl) hs,
      gapStep_mid (show s.tcnt + i < s.cfg.T_RESET - 1 by omega)]
    simp only [nextCycle, State.advance, gapPos, List.tail_drop]
    rfl

/-- The end of a gap (R136). -/
theorem cycles_gap_end {s : State} (hs : s.st = .gap) {i : Nat} (hi : s.tcnt + i + 1 = s.cfg.T_RESET)
    (hn : s.noReset (i + 1)) :
    cycles (i + 1) s = .next { s with st := .idle, tcnt := 0, inputs := s.inputs.drop (i + 1) } := by
  rw [cycles_succ_last (cycles_gap hs (by omega) (noReset_mono (by omega) hn)),
    step_gap (s := gapPos s i) (input_of_noReset hn rfl) hs,
    gapStep_end (show ¬ s.tcnt + i < s.cfg.T_RESET - 1 by omega)]
  simp only [endGap, State.advance, gapPos, List.tail_drop]

/-- A frame that starts in this cycle is in its first SEND cycle after it. -/
theorem step_startsFrame {s : State} {F : Memory} (hc : s.cfg.wf) (h : s.startsFrame F) :
    ∃ b, step s = .next b ∧ FirstCycle b ∧ b.cfg = s.cfg ∧ b.inputs = s.inputs.tail ∧
      b.ILL = s.ILL ∧ (∀ a, b.FB.read a = F.read a) := by
  obtain ⟨ha, hd⟩ := h
  obtain ⟨hv, hs, hr⟩ := accepted_iff.1 ha
  have h0 : 0 < s.advance.cfg.fbSize := by
    have := hc.1
    simp only [advance_cfg, Config.fbSize]; omega
  rcases hd with ⟨hd, rfl⟩ | ⟨hd, hz⟩
  · refine ⟨startFrame (s.FB.read 0) s.advance, ?_, ⟨rfl, rfl, rfl, rfl, rfl⟩, rfl, rfl, rfl, fun _ => rfl⟩
    rw [step, cycle_word hr (by simpa using hs) hv, runWord, hd]
    simp only [exec, execShow]
    exact readFB_of_lt h0
  · refine ⟨startFrame 0x00#8 s.advance.zeroFB, ?_, ⟨rfl, rfl, rfl, rfl, rfl⟩, rfl, rfl, rfl, fun a => ?_⟩
    · rw [step, cycle_word hr (by simpa using hs) hv, runWord, hd]
      rfl
    · simp [hz a]

/-- Every cycle of a frame that starts in this cycle, to the first IDLE cycle after it (R141): `m` cycles
into SEND, `i` cycles into GAP, and the end of the gap. -/
theorem cycles_frame {s : State} {F : Memory} (hc : s.cfg.wf) (h : s.startsFrame F)
    (hn : s.noReset (s.cfg.D_FRAME + 1)) :
    ∃ b, step s = .next b ∧ FirstCycle b ∧ b.cfg = s.cfg ∧ b.inputs = s.inputs.tail ∧
      b.noReset s.cfg.D_FRAME ∧ (∀ a, b.FB.read a = F.read a) ∧
      (∀ m, m < s.cfg.sendLen →
        cycles (m + 1) s = .next (bitPos b (m / s.cfg.T_BIT) (m % s.cfg.T_BIT))) ∧
      (∀ i, i < s.cfg.T_RESET → cycles (s.cfg.sendLen + i + 1) s = .next (gapPos (gapStart b) i)) ∧
      cycles (s.cfg.D_FRAME + 1) s = .next (endGap (gapPos (gapStart b) s.cfg.T_RESET)) := by
  obtain ⟨b, e, hb, hcf, hi, -, hF⟩ := step_startsFrame hc h
  have hnb : b.noReset s.cfg.D_FRAME := (noReset_congr (t := s.advance) hi).2 (noReset_succ.1 hn).2
  have hD : s.cfg.D_FRAME = s.cfg.sendLen + s.cfg.T_RESET := rfl
  have hT : 0 < s.cfg.T_BIT := by have := hc.2.2.1; omega
  have hR : 1 ≤ s.cfg.T_RESET := hc.2.2.2.2.2.2
  have hgap := cycles_gapStart hb (hcf ▸ hc) (hcf ▸ noReset_mono (by omega) hnb)
  rw [hcf] at hgap
  have hng : ∀ i, i ≤ s.cfg.T_RESET → (gapStart b).noReset i := fun i hi x hx => by
    refine hnb x ?_
    rw [hD, List.take_add]
    simp only [gapStart, endSend_inputs, hcf] at hx
    exact List.mem_append_right _ (List.take_subset_take_left _ hi hx)
  refine ⟨b, e, hb, hcf, hi, hnb, hF, fun m hm => ?_, fun i hi => ?_, ?_⟩
  · have hq := Nat.div_add_mod' m s.cfg.T_BIT
    have := cycles_bitPos hb (q := m / s.cfg.T_BIT) (r := m % s.cfg.T_BIT)
      (by rw [hcf, Nat.div_lt_iff_lt_mul hT]; exact hm) (by rw [hcf]; exact Nat.mod_lt _ hT)
      (by rw [hcf, hq]; exact noReset_mono (by omega) hnb)
    rw [hcf, hq] at this
    rw [cycles_succ e, this]
  · rw [cycles_succ e, cycles_add hgap]
    exact cycles_gap rfl (by simpa [gapStart, bitPos, hcf] using hi) (hng i (by omega))
  · have hend := cycles_gap_end (s := gapStart b) rfl (i := s.cfg.T_RESET - 1)
      (by simp only [gapStart, endSend_tcnt, endSend_cfg, bitPos, hcf]; omega) (hng _ (by omega))
    rw [Nat.sub_add_cancel hR] at hend
    rw [cycles_succ e, hD, cycles_add hgap, hend]
    rfl

end Sys2Proof.Machine
end

