-- ==== Sys2Proof/Laws/PerInstr.lean ====
section
/-! SUPPORT. The family TableRow: the word of every command matches its row of the opcode table
(30_encoding.md R76). -/

namespace Sys2Proof

/-- The word of a command matches its row's mask and match. -/
def Laws.TableRow.Statement (i : Instr) : Prop := matchesRow (encode i) i = true

theorem Laws.TableRow.nop : Laws.TableRow.Statement .nop := by
  unfold Laws.TableRow.Statement; decide

theorem Laws.TableRow.setColor (idx : Nat) (r g b : Byte) :
    Laws.TableRow.Statement (.setColor idx r g b) := by
  simp [Laws.TableRow.Statement, matchesRow, rowMask, rowBits, encode, and_setColorMask_iff]

theorem Laws.TableRow.clear : Laws.TableRow.Statement .clear := by
  unfold Laws.TableRow.Statement; decide

theorem Laws.TableRow.showFrame : Laws.TableRow.Statement .showFrame := by
  unfold Laws.TableRow.Statement; decide

end Sys2Proof
end

