-- ==== Sys2Proof/Machine/PowerUp.lean ====
section
/-! DEFINITION. The state before the first reset after power-up: a draw (70_reset_and_hazards.md R192).

The machine starts from `ResetState`, never from here; a claim about what power-up leaves holds of every
draw. -/

namespace Sys2Proof.Machine

/-- The FSM state a 2-bit register holds (10_state.md R23); the unused encoding 3 is treated as GAP
(92_eei_decisions.md D25). -/
def Fsm.ofBits (b : BitVec 2) : Fsm :=
  if b = 0#2 then .idle else if b = 1#2 then .send else .gap

/-- The encoding of the FSM state (R23). -/
def Fsm.code : Fsm → BitVec 2
  | .idle => 0#2
  | .send => 1#2
  | .gap => 2#2

/-- The frame buffer's first `n` bytes, drawn. -/
def powerUpFB (k : Nat) : Nat → Memory
  | 0 => []
  | n + 1 => (powerUpFB k n).write n (Config.powerUpByte k n)

/-- The `k`-th power-up of the build `c`: every register and every FB byte is a draw within its width
(R192, 00_scope.md R11). -/
def State.powerUp (c : Config) (k : Nat) (inputs : List Input) : State where
  FB := powerUpFB k c.fbSize
  st := Fsm.ofBits (Config.powerUpSt k)
  ptr := Config.powerUpPtr k % 2 ^ c.PTR_W
  sh := Config.powerUpSh k
  bitn := Config.powerUpBitn k
  tcnt := Config.powerUpTcnt k % 2 ^ c.TCNT_W
  ILL := Config.powerUpIll k
  cfg := c
  inputs := inputs

end Sys2Proof.Machine
end

