-- ==== Sys2Proof/Laws/PowerUp.lean ====
section
/-! SUPPORT. The power-up draw: its frame buffer is in its form, and one reset cycle ends it
(70_reset_and_hazards.md R190, R192). -/

namespace Sys2Proof.Machine

theorem Fsm.ofBits_code (f : Fsm) : Fsm.ofBits f.code = f := by cases f <;> decide

theorem powerUpFB_wf (k n : Nat) : (powerUpFB k n).wf = true := by
  induction n with
  | zero => rfl
  | succ n ih => exact Memory.write_wf ih

theorem powerUpFB_read {k n a : Nat} (h : a < n) : (powerUpFB k n).read a = Config.powerUpByte k a := by
  induction n with
  | zero => omega
  | succ n ih =>
    unfold powerUpFB
    by_cases ha : a = n
    · subst a; exact Memory.read_write_same (powerUpFB_wf k n)
    · rw [Memory.read_write_other ha, ih (by omega)]

/-- One reset cycle takes every power-up draw to ResetState. -/
theorem powerUp_reset (c : Config) (k : Nat) (v : Bool) (w : Word) (is : List Input) :
    step (State.powerUp c k (⟨true, v, w⟩ :: is)) =
      .next (resetEdge (State.powerUp c k is)) := rfl

end Sys2Proof.Machine
end

