-- ==== Sys2Proof/Tests/Slice0.lean ====
section
/-! SUPPORT. Small tests, their expected values from the spec (95_test_vectors.md and the rules named), and
a witness for the hypotheses of every obligation that has some. -/

namespace Sys2Proof.Tests

open Sys2Proof Sys2Proof.Machine

/-! ### Helpers -/

/-- The build "tiny" of 95_test_vectors.md, with `n` LEDs. -/
def tiny (n : Nat) : Config := { Config.defaults with N := n, T_BIT := 4, T_H0 := 1, T_H1 := 2, T_RESET := 3 }

/-- A cycle in which the host offers `w`. -/
def offer (w : Word) : Input := ⟨false, true, w⟩

/-- A cycle of reset. -/
def rst : Input := ⟨true, true, 0x0300000000000000#64⟩

/-- The tiny build in IDLE with the frame buffer `F` and the coming inputs `is`. -/
def idle (n : Nat) (F : Memory) (is : List Input) : State :=
  { State.reset with cfg := tiny n, st := .idle, FB := F, inputs := is }

/-- The tiny build in SEND at a position, its shift register loaded for it. -/
def sending (n : Nat) (F : Memory) (ptr : Nat) (bitn : BitVec 3) (tcnt : Nat) (is : List Input) : State :=
  { State.reset with
    cfg := tiny n, st := .send, FB := F, ptr := ptr, bitn := bitn, tcnt := tcnt
    sh := F.read ptr <<< (7 - bitn.toNat), inputs := is }

/-- The tiny build in GAP. -/
def gapping (n tcnt : Nat) (is : List Input) : State :=
  { State.reset with cfg := tiny n, tcnt := tcnt, inputs := is }

/-- The answer is a next state that satisfies `p`. -/
def nextIs (r : Result) (p : State → Bool) : Bool :=
  match r with
  | .next t => p t
  | .fault _ => false
  | .refused _ => false

/-! ### The well-formedness checks, each with a term it refuses -/

theorem test_wf_index_too_wide : Instr.wf (.setColor 65536 0#8 0#8 0#8) = false := by decide
theorem test_wf_index_at_top : Instr.wf (.setColor 65535 0#8 0#8 0#8) = true := by decide
theorem test_wf_no_led : ¬ ({ Config.defaults with N := 0 } : Config).wf := by decide
theorem test_wf_too_many_leds : ¬ ({ Config.defaults with N := 65537 } : Config).wf := by decide
theorem test_wf_short_bit : ¬ ({ Config.defaults with T_BIT := 2, T_H0 := 1, T_H1 := 1 } : Config).wf := by
  decide
theorem test_wf_no_zero_pulse : ¬ ({ Config.defaults with T_H0 := 0 } : Config).wf := by decide
theorem test_wf_equal_pulses : ¬ ({ Config.defaults with T_H0 := 12 } : Config).wf := by decide
theorem test_wf_no_idle_phase : ¬ ({ Config.defaults with T_H1 := 20 } : Config).wf := by decide
theorem test_wf_no_gap : ¬ ({ Config.defaults with T_RESET := 0 } : Config).wf := by decide
theorem test_wf_defaults : Config.defaults.wf ∧ (tiny 1).wf := by decide
theorem test_wf_memory_unsorted : Memory.wf [(3, 1#8), (1, 1#8)] = false := by decide
theorem test_wf_memory_zero_cell : Memory.wf [(3, 0#8)] = false := by decide
theorem test_wf_memory_outside : Memory.below [(30, 1#8)] Config.defaults.fbSize = false := by decide

/-! ### Decoding: words written bit by bit from the encodings of spec/opcode_table.json (R71, R76) -/

theorem test_decode_nop :
    decode 0b0000000000000000000000000000000000000000000000000000000000000000#64 = some .nop := by decide
/-- R80's worked example, `setcolor 3, 0, 255, 255`. -/
theorem test_decode_setColor :
    decode 0b0000000100000000000000000000001100000000000000001111111111111111#64 =
      some (.setColor 3 0x00#8 0xFF#8 0xFF#8) := by decide
theorem test_decode_clear :
    decode 0b0000001000000000000000000000000000000000000000000000000000000000#64 = some .clear := by decide
theorem test_decode_showFrame :
    decode 0b0000001100000000000000000000000000000000000000000000000000000000#64 = some .showFrame := by
  decide
/-- Each channel in its own byte: `setcolor 9, 255, 0, 128`. -/
theorem test_decode_channels :
    decode 0x0100000900FF0080#64 = some (.setColor 9 0xFF#8 0x00#8 0x80#8) := by decide
theorem test_decode_rsv1 : decode 0x0101000000FF0000#64 = none := by decide
theorem test_decode_rsv0 : decode 0x0100FFFFFFFFFFFF#64 = none := by decide
theorem test_decode_show_bit55 : decode 0x0380000000000000#64 = none := by decide
theorem test_encode_setColor : encode (.setColor 9 0xFF#8 0x00#8 0x80#8) = 0x0100000900FF0080#64 := by decide
theorem test_decodeTableWord :
    decodeTableWord 64 0x010000030000FFFF = some (.setColor 3 0x00#8 0xFF#8 0xFF#8) := by decide
theorem test_decodeTableWord_too_wide : decodeTableWord 72 0x010300000000000000 = none := by decide

/-! ### The commands (40_frame_buffer.md, 41_protocol_encoder.md, 42_control.md) -/

/-- R101's worked example: FB[9..11] = [0xFF, 0x00, 0xFF]. -/
theorem test_setColor_wire_order :
    nextIs (exec (.setColor 3 0x00#8 0xFF#8 0xFF#8) State.reset)
      (fun t => t.FB == [(9, 0xFF#8), (11, 0xFF#8)]) = true := by decide
/-- `setcolor 10, 9, 9, 9` with N = 10 writes nothing. -/
theorem test_setColor_index_N :
    nextIs (exec (.setColor 10 9#8 9#8 9#8) State.reset) (fun t => decide (t = State.reset)) = true := by
  decide
/-- V-CL1. -/
theorem test_clear :
    nextIs (exec .clear (idle 2 [(0, 1#8), (1, 2#8), (2, 3#8), (3, 4#8), (4, 5#8), (5, 6#8)] []))
      (fun t => t.FB == [] && t.st == .send && t.ptr == 0 && t.sh == 0#8 && t.bitn == 7#3 && t.tcnt == 0)
      = true := by decide
/-- V-SH3: the state in cycle 803. -/
theorem test_show :
    nextIs (exec .showFrame (idle 1 [(0, 0x80#8), (2, 0x01#8)] []))
      (fun t => t.st == .send && t.ptr == 0 && t.sh == 0x80#8 && t.bitn == 7#3 && t.tcnt == 0) = true := by
  decide
/-- No build has no LED; the read of FB[0] would stop. -/
theorem test_show_without_leds :
    (match exec .showFrame (idle 0 [] []) with
      | .fault r => decide (r = .absentOffset 0)
      | _ => false) = true := by decide
theorem test_nop :
    nextIs (step (idle 1 [(1, 7#8)] [offer 0#64]))
      (fun t => decide (t = idle 1 [(1, 7#8)] [])) = true := by decide
/-- R161's worked example, with STATUS 0x08 in the next cycle. -/
theorem test_illegal :
    nextIs (step (idle 1 [(1, 7#8)] [offer 0x0400000000000000#64]))
      (fun t => t.ILL && t.FB == [(1, 7#8)] && t.st == .idle && t.status == 0x08#8) = true := by decide
/-- An illegal word offered in GAP sets nothing: STATUS stays 0x05. -/
theorem test_illegal_stalls :
    nextIs (step (gapping 1 0 [offer 0x0400000000000000#64])) (fun t => t.status == 0x05#8) = true := by
  decide

/-! ### The serializer, the gap and reset -/

/-- V-SH3: cycle 823, bit 6 of 0x80 after bit 7. -/
theorem test_next_bit :
    nextIs (step (sending 1 [(0, 0x80#8), (2, 0x01#8)] 0 7#3 3 []))
      (fun t => t.sh == 0x00#8 && t.bitn == 6#3 && t.tcnt == 0 && t.ptr == 0) = true := by decide
/-- V-SH3: cycle 963, the first bit of the second byte. -/
theorem test_next_byte :
    nextIs (step (sending 1 [(0, 0x80#8), (2, 0x01#8)] 0 0#3 3 []))
      (fun t => t.ptr == 1 && t.sh == 0x00#8 && t.bitn == 7#3 && t.tcnt == 0) = true := by decide
/-- R126: the last cycle of the last bit enters GAP. -/
theorem test_end_of_frame :
    nextIs (step (sending 1 [(0, 0x80#8), (2, 0x01#8)] 2 0#3 3 []))
      (fun t => t.st == .gap && t.tcnt == 0 && t.ptr == 2 && t.sh == 0x80#8 && t.bitn == 0#3) = true := by
  decide
/-- V-SH1 and V-SH2: a 1 bit is `1100`, and its complement with INV = 1. -/
theorem test_line_of_a_one :
    ([0, 1, 2, 3].map fun c => (sending 1 [(0, 0x80#8)] 0 7#3 c []).dout) = [true, true, false, false] := by
  decide
theorem test_pin_inverted :
    ([0, 1, 2, 3].map fun c =>
      ({ sending 1 [(0, 0x80#8)] 0 7#3 c [] with cfg := { tiny 1 with INV := true } } : State).dout) =
      [false, false, true, true] := by decide
/-- V-GP2: T_RESET = 3, so the gap's third cycle is its last. -/
theorem test_gap_end :
    nextIs (step (gapping 1 2 [])) (fun t => t.st == .idle && t.tcnt == 0 && t.cmdReady) = true := by decide
/-- V-RS1: in the reset cycle the pin is forced idle and STATUS still shows SEND; then ResetState. -/
theorem test_reset_mid_frame :
    (sending 1 [(0, 0xA5#8)] 0 7#3 1 [rst]).dout = false ∧
    (sending 1 [(0, 0xA5#8)] 0 7#3 1 [rst]).status = 0x03#8 ∧
    nextIs (step (sending 1 [(0, 0xA5#8)] 0 7#3 1 [rst]))
      (fun t => decide (t = gapping 1 0 []) && t.status == 0x05#8) = true := by decide
/-- `show` with ILL = 1: STATUS 0x0B in the next cycle. -/
theorem test_status_ill_and_busy :
    nextIs (step { idle 1 [] [offer 0x0300000000000000#64] with ILL := true })
      (fun t => t.status == 0x0B#8) = true := by decide

/-! ### A word placed before the next step, from reset -/

theorem test_fetch_setColor :
    nextIs (step (State.reset.withFetchWord 64 0x0100000000010203))
      (fun t => t.FB == [(0, 2#8), (1, 1#8), (2, 3#8)]) = true := by decide
theorem test_fetch_show :
    nextIs (step (State.reset.withFetchWord 64 0x0300000000000000)) (fun t => t.TX) = true := by decide

/-! ### The line's decoder and the assembler -/

/-- R144 on the first bits of V-SH1: 1, 0, 1, 0. -/
theorem test_recover_bits :
    recoverBits (tiny 1) ([1, 1, 0, 0, 1, 0, 0, 0, 1, 1, 0, 0, 1, 0, 0, 0].map fun n => n == 1) =
      [true, false, true, false] := by decide
theorem test_assemble_setcolor :
    assembleText 10 ['s', 'e', 't', 'c', 'o', 'l', 'o', 'r', ' ', '3', ',', ' ', '0', ',', ' ', '0', 'x', 'F',
      'F', ',', '2', '5', '5', ' ', ';', ' ', 'x'] = some [0x010000030000FFFF#64] := by decide
theorem test_assemble_refuses_256 : assembleCore (.setcolor 0 256 0 0) = none := by decide
theorem test_assemble_word :
    assembleText 10 ['.', 'w', 'o', 'r', 'd', ' ', '0', 'x', '0', '4', '0', '0', '_', '0', '0', '0', '0', '_',
      '0', '0', '0', '0', '_', '0', '0', '0', '0'] = some [0x0400000000000000#64] := by decide
/-- R81: `fillshow` with N = 2 (95_test_vectors.md P2). -/
theorem test_assemble_fillshow :
    assemble 2 (.fillshow 0x10 0x20 0x30) =
      some [0x0100000000102030#64, 0x0100000100102030#64, 0x0300000000000000#64] := by decide
/-- The unused FSM encoding 3 is treated as GAP (92_eei_decisions.md D25). -/
theorem test_fsm_encoding_three : Fsm.ofBits 3#2 = .gap ∧ Fsm.ofBits 1#2 = .send := by decide

/-! ### Witnesses: states that meet the hypotheses of the obligations -/

/-- SHOW is accepted with the frame buffer [0xA5, 0x0F, 0x81] of V-SH1. -/
def showing (is : List Input) : State :=
  idle 1 [(0, 0xA5#8), (1, 0x0F#8), (2, 0x81#8)] (offer 0x0300000000000000#64 :: is)

/-- CLEAR is accepted over the same frame buffer. -/
def clearing (is : List Input) : State :=
  idle 1 [(0, 0xA5#8), (1, 0x0F#8), (2, 0x81#8)] (offer 0x0200000000000000#64 :: is)

/-- For every statement about a frame: a SHOW that carries FB, other words offered while it runs. -/
theorem witness_frame_by_show :
    (showing [offer 0x01#64, offer 0#64]).cfg.wf ∧
    (showing [offer 0x01#64, offer 0#64]).startsFrame (showing []).FB ∧
    (showing [offer 0x01#64, offer 0#64]).noReset ((tiny 1).D_FRAME + 1) :=
  ⟨by decide, ⟨by decide, .inl ⟨by decide, rfl⟩⟩, by decide⟩

/-- For every statement about a frame: a CLEAR that carries zeros. -/
theorem witness_frame_by_clear :
    (clearing [offer 0x01#64]).cfg.wf ∧ (clearing [offer 0x01#64]).startsFrame [] ∧
    (clearing [offer 0x01#64]).noReset ((tiny 1).D_FRAME + 1) :=
  ⟨by decide, ⟨by decide, .inr ⟨by decide, fun _ => rfl⟩⟩, by decide⟩

theorem witness_DecodeOfEncodeIsTheCommand :
    Instr.wf .nop = true ∧ Instr.wf (.setColor 65535 1#8 2#8 3#8) = true := by decide

theorem witness_EncodeOfDecodeIsTheWord :
    decode 0x0100FFFF00FFFFFF#64 = some (.setColor 65535 0xFF#8 0xFF#8 0xFF#8) := by decide

theorem witness_LegalWordsAreTheTablesRows :
    matchesRow 0x0100000300000000#64 (.setColor 0 0#8 0#8 0#8) = true ∧
    matchesRow 0x0100000300000000#64 (.setColor 1 2#8 3#8 4#8) = true := by decide

theorem witness_SetColorFieldsAreTheSpecsBits :
    decode 0x0100FFFF00FF0080#64 = some (.setColor 65535 0xFF#8 0x00#8 0x80#8) := by decide

theorem witness_IllegalWordsAreOfThreeKinds :
    (idle 1 [] [offer 0x0400000000000000#64]).accepted = true ∧
    decode (idle 1 [] [offer 0x0400000000000000#64]).input.cmdData = none := by decide

theorem witness_StepRunsTheDecodedCommand :
    (showing []).accepted = true ∧ decode (showing []).input.cmdData = some .showFrame := by decide

theorem witness_CommandReadyIsIdleWithoutReset :
    (gapping 1 2 [offer 0#64]).st ≠ .idle ∧ (gapping 1 2 [offer 0#64]).input.cmdValid = true ∧
    (idle 1 [] [offer 0#64]).accepted = true := by decide

theorem witness_StalledWordHasNoEffect :
    (gapping 1 2 []).cmdReady = false ∧ (sending 1 [] 2 0#3 3 []).cmdReady = false ∧
    (idle 1 [] [rst]).cmdReady = false := by decide

theorem witness_EveryRunGoesOn : State.reset.cfg.wf ∧ (tiny 65536).wf := by decide

theorem witness_BuildNeverChanges : ∃ t, step State.reset = .next t := ⟨_, rfl⟩

theorem witness_NopChangesNothing :
    (idle 1 [] [offer 0#64]).accepted = true ∧ (idle 1 [] [offer 0#64]).input.cmdData = 0#64 := by decide

/-- The last LED in range, and the first index out of it. -/
theorem witness_SetColorStoresWireOrder :
    (idle 2 [(5, 1#8)] []).FB.wf = true ∧ 1 < (idle 2 [(5, 1#8)] []).cfg.N ∧
    ¬ 2 < (idle 2 [(5, 1#8)] []).cfg.N := by decide

/-- `setcolor 2, 9, 9, 9` with N = 2, and a SET_COLOR word with RSV1 = 1, another with RSV0 = 1. -/
theorem witness_OutOfRangeSetColorIsIgnored :
    (idle 2 [] [offer 0x0100000200090909#64]).accepted = true ∧
    decode (idle 2 [] [offer 0x0100000200090909#64]).input.cmdData = some (.setColor 2 9#8 9#8 9#8) ∧
    (idle 2 [] [offer 0x0100000200090909#64]).cfg.N ≤ 2 ∧
    (opOf 0x0101000200090909#64 = 0x01#8 ∧ rsv1Of 0x0101000200090909#64 ≠ 0#8) ∧
    (opOf 0x0100000201090909#64 = 0x01#8 ∧ rsv0Of 0x0100000201090909#64 ≠ 0#8) := by decide

theorem witness_SetColorAndClearAreIdempotent :
    (idle 2 [(5, 1#8)] []).FB.wf = true ∧
    (∃ t, exec (.setColor 1 9#8 0#8 7#8) (idle 2 [(5, 1#8)] []) = .next t) ∧
    (∃ t, exec (.setColor 2 9#8 0#8 7#8) (idle 2 [(5, 1#8)] []) = .next t) ∧
    (∃ t u : State, exec .clear (idle 2 [(5, 1#8)] []) = .next t ∧ u.FB = t.FB ∧ u.st = .idle) :=
  ⟨by decide, ⟨_, rfl⟩, ⟨_, rfl⟩, ⟨_, idle 2 [] [], rfl, rfl, rfl⟩⟩

theorem witness_ClearZeroesAndStartsAFrame :
    (∃ t, exec .clear (clearing []) = .next t) ∧ (clearing []).accepted = true :=
  ⟨⟨_, rfl⟩, by decide⟩

theorem witness_ShowStartsAFrame :
    (showing []).cfg.wf ∧ (∃ t, exec .showFrame (showing []) = .next t) ∧ (showing []).accepted = true :=
  ⟨by decide, ⟨_, rfl⟩, by decide⟩

theorem witness_SingleCycleCommandsLeaveIdle :
    (idle 1 [] [offer 0x0100000500090909#64]).accepted = true ∧
    decode (idle 1 [] [offer 0x0100000500090909#64]).input.cmdData = some (.setColor 5 9#8 9#8 9#8) ∧
    (idle 1 [] [offer 0x01#64]).accepted = true ∧
    decode (idle 1 [] [offer 0x01#64]).input.cmdData = none := by decide

/-- An illegal word accepted, and one offered in GAP with a next state. -/
theorem witness_IllegalCommandOnlySetsIll :
    ((idle 1 [] [offer 0x01#64]).accepted = true ∧ decode (idle 1 [] [offer 0x01#64]).input.cmdData = none) ∧
    ((gapping 1 2 [offer 0x01#64]).st ≠ .idle ∧ (gapping 1 2 [offer 0x01#64]).input.rst = false ∧
      decode (gapping 1 2 [offer 0x01#64]).input.cmdData = none ∧
      ∃ t, step (gapping 1 2 [offer 0x01#64]) = .next t) :=
  ⟨by decide, by decide, by decide, by decide, ⟨_, rfl⟩⟩

/-- ILL = 1 in IDLE, with a CLEAR accepted, and with a further illegal word accepted. -/
theorem witness_IllIsStickyAndInert :
    (({ clearing [] with ILL := true } : State).input.rst = false ∧
      ∃ t, step { clearing [] with ILL := true } = .next t) ∧
    (({ idle 1 [] [offer 0x01#64] with ILL := true } : State).accepted = true ∧
      decode ({ idle 1 [] [offer 0x01#64] with ILL := true } : State).input.cmdData = none) :=
  ⟨⟨by decide, ⟨_, rfl⟩⟩, by decide⟩

/-- A frame start, the last cycle of a last bit, and the last cycle of a gap, each in a state that meets the
invariant. -/
theorem witness_FlagsChangeOnlyAtTheirEvents :
    ((showing []).Inv ∧ ∃ t, step (showing []) = .next t) ∧
    ((sending 1 [(2, 0x81#8)] 2 0#3 3 []).Inv ∧ ∃ t, step (sending 1 [(2, 0x81#8)] 2 0#3 3 []) = .next t) ∧
    ((gapping 1 2 []).Inv ∧ ∃ t, step (gapping 1 2 []) = .next t) ∧
    ∃ t, exec .clear (clearing []) = .next t :=
  ⟨⟨by decide, ⟨_, rfl⟩⟩, ⟨by decide, ⟨_, rfl⟩⟩, ⟨by decide, ⟨_, rfl⟩⟩, ⟨_, rfl⟩⟩

/-- A byte that a CLEAR changes. -/
theorem witness_FrameBufferHasNoOtherWriter :
    ∃ t, step (clearing []) = .next t ∧ t.FB.read 2 ≠ (clearing []).FB.read 2 :=
  ⟨_, rfl, by decide⟩

theorem witness_FrameBufferIsConstantDuringAFrame :
    (sending 1 [(2, 0x81#8)] 2 0#3 3 []).st ≠ .idle ∧ (sending 1 [(2, 0x81#8)] 2 0#3 3 []).input.rst = false ∧
    ∃ t, step (sending 1 [(2, 0x81#8)] 2 0#3 3 []) = .next t :=
  ⟨by decide, by decide, ⟨_, rfl⟩⟩

/-- One state for each of the four cases, at its boundary. -/
theorem witness_SendStepCases :
    (sending 1 [] 0 7#3 2 []).tcnt < (tiny 1).T_BIT - 1 ∧
    (¬ (sending 1 [] 0 1#3 3 []).tcnt < (tiny 1).T_BIT - 1 ∧ 0 < (sending 1 [] 0 1#3 3 []).bitn.toNat) ∧
    (¬ (sending 1 [] 1 0#3 3 []).tcnt < (tiny 1).T_BIT - 1 ∧ (sending 1 [] 1 0#3 3 []).bitn.toNat = 0 ∧
      (sending 1 [] 1 0#3 3 []).ptr < 3 * (tiny 1).N - 1) ∧
    (¬ (sending 1 [] 2 0#3 3 []).tcnt < (tiny 1).T_BIT - 1 ∧ (sending 1 [] 2 0#3 3 []).bitn.toNat = 0 ∧
      ¬ (sending 1 [] 2 0#3 3 []).ptr < 3 * (tiny 1).N - 1) ∧
    (sending 1 [] 2 0#3 3 []).st = .send ∧ (sending 1 [] 2 0#3 3 []).input.rst = false := by decide

theorem witness_GapLastsExactlyTReset :
    ((gapping 1 1 []).st = .gap ∧ (gapping 1 1 []).input.rst = false ∧
      (gapping 1 1 []).tcnt < (tiny 1).T_RESET - 1) ∧
    (gapping 1 2 []).tcnt = (tiny 1).T_RESET - 1 ∧
    ((gapping 1 0 [offer 0#64]).cfg.wf ∧ (gapping 1 0 [offer 0#64]).tcnt = 0 ∧
      (gapping 1 0 [offer 0#64]).noReset (tiny 1).T_RESET) := by decide

theorem witness_IdleWaitsForEver :
    (idle 1 [] [Input.quiet]).st = .idle ∧ (idle 1 [] [Input.quiet]).noReset 5 ∧
    (idle 1 [] [Input.quiet]).noWord 5 := by decide

theorem witness_LineIsActiveOnlyInTheActivePhase :
    (sending 1 [] 0 7#3 0 []).st = .send ∧ (gapping 1 0 []).st = .gap ∧ (idle 1 [] []).st ≠ .send := by decide

theorem witness_PinFollowsLineAndPolarity :
    (idle 1 [] [rst]).input.rst = true ∧ (idle 1 [] []).line = false ∧
    ((sending 1 [] 0 7#3 0 []).input.rst = false ∧ (sending 1 [] 0 7#3 0 []).line = true) := by decide

theorem witness_BitPeriodWaveform :
    (sending 1 [(1, 0x01#8)] 1 0#3 0 [offer 0#64]).cfg.wf ∧
    (sending 1 [(1, 0x01#8)] 1 0#3 0 [offer 0#64]).st = .send ∧
    (sending 1 [(1, 0x01#8)] 1 0#3 0 [offer 0#64]).tcnt = 0 ∧
    (sending 1 [(1, 0x01#8)] 1 0#3 0 [offer 0#64]).noReset ((tiny 1).T_BIT - 1) := by decide

/-- The second clause of LineIsIdleBetweenFrames, and EntryAfterReset. -/
theorem witness_LineIsIdleBetweenFrames_reset :
    (sending 1 [] 0 7#3 0 [rst, offer 0#64]).cfg.wf ∧
    (sending 1 [] 0 7#3 0 [rst, offer 0#64]).input.rst = true ∧
    (sending 1 [] 0 7#3 0 [rst, offer 0#64]).advance.noReset (tiny 1).T_RESET := by decide

/-- Both hosts of NothingButResetDisturbsAFrame, and a reset in SEND. -/
theorem witness_NothingButResetDisturbsAFrame :
    ({ showing [] with inputs := (showing []).input :: [offer 0x01#64, offer 0#64] } : State).noReset
      ((tiny 1).D_FRAME + 1) ∧
    ((sending 1 [] 0 7#3 0 [rst]).st = .send ∧ (sending 1 [] 0 7#3 0 [rst]).input.rst = true) := by decide

/-- A build whose gap meets the strip's latch time exists, whatever that time is. -/
theorem witness_FrameGapMeetsTheLatchTime (latch : Rat) :
    ∃ (s : State) (F : Memory), s.cfg.T_LATCH_MIN = some latch ∧ s.cfg.wf ∧ s.cfg.latchMet ∧
      s.startsFrame F ∧ s.noReset (s.cfg.D_FRAME + 1) := by
  obtain ⟨n, hn⟩ := exists_nat_ge latch
  refine ⟨{ showing [] with
      cfg := { tiny 1 with F_CLK := 1, T_RESET := n + 1, T_LATCH_MIN := some latch } }, (showing []).FB, rfl,
    ⟨show 1 ≤ 1 by decide, show 1 ≤ 65536 by decide, show 3 ≤ 4 by decide, show 1 ≤ 1 by decide,
      show 1 < 2 by decide, show 2 < 4 by decide, Nat.succ_pos n⟩,
    ⟨latch, rfl, ?_⟩,
    ⟨rfl, .inl ⟨show decode 0x0300000000000000#64 = some .showFrame by decide, rfl⟩⟩, ?_⟩
  · simp only [Config.seconds]
    push_cast
    linarith
  · intro i hi
    have : i ∈ [offer 0x0300000000000000#64] := List.mem_of_mem_take hi
    rw [List.mem_singleton.1 this]
    rfl

/-- A host that offers SHOW and CLEAR in turn. -/
theorem witness_FramesRepeatEveryFramePeriod :
    (clearing [offer 0x0300000000000000#64]).cfg.wf ∧ (clearing [offer 0x0300000000000000#64]).st = .idle ∧
    (∀ i ∈ (clearing [offer 0x0300000000000000#64]).inputs, i.rst = false ∧ i.cmdValid = true ∧
      (decode i.cmdData = some .showFrame ∨ decode i.cmdData = some .clear)) ∧
    1 < (clearing [offer 0x0300000000000000#64]).inputs.length := by decide

theorem witness_PaintedLedReachesTheLine :
    (idle 1 [(0, 1#8)] [offer (encode (.setColor 0 1#8 2#8 3#8)), offer (encode .showFrame)]).cfg.wf ∧
    (idle 1 [(0, 1#8)] [offer (encode (.setColor 0 1#8 2#8 3#8)), offer (encode .showFrame)]).FB.wf = true ∧
    0 < (tiny 1).N ∧
    (idle 1 [(0, 1#8)] [offer (encode (.setColor 0 1#8 2#8 3#8)), offer (encode .showFrame)]).noReset
      ((tiny 1).D_FRAME + 2) := by decide

theorem witness_ResetFromEveryState :
    2 ≤ (sending 1 [] 0 7#3 0 [rst, rst]).inputs.length ∧
    (∀ i ∈ (sending 1 [] 0 7#3 0 [rst, rst]).inputs.take 2, i.rst = true) ∧
    (sending 1 [] 0 7#3 0 [rst, rst]).input.rst = true := by decide

theorem witness_EntryAfterReset :
    (idle 1 [] [rst, offer 0#64]).cfg.wf ∧ (idle 1 [] [rst, offer 0#64]).input.rst = true ∧
    (idle 1 [] [rst, offer 0#64]).advance.noReset (tiny 1).T_RESET := by decide

theorem witness_ResetStateMeetsTheInvariant : (idle 1 [] []).cfg.wf := by decide

theorem witness_StepKeepsTheInvariant :
    ((sending 1 [(0, 0xA5#8)] 0 3#3 3 []).Inv ∧ ∃ t, step (sending 1 [(0, 0xA5#8)] 0 3#3 3 []) = .next t) ∧
    ((idle 1 [] [offer (encode (.setColor 0 1#8 2#8 3#8))]).Inv ∧
      ∃ t, step (idle 1 [] [offer (encode (.setColor 0 1#8 2#8 3#8))]) = .next t) :=
  ⟨⟨by decide, ⟨_, rfl⟩⟩, ⟨by decide, ⟨_, rfl⟩⟩⟩

theorem witness_ReachableStatesMeetTheSpecsInvariants :
    (sending 1 [] 0 7#3 0 [rst]).cfg.wf ∧ (sending 1 [] 0 7#3 0 [rst]).input.rst = true ∧
    ∃ t, cycles (1 + 1) (sending 1 [] 0 7#3 0 [rst]) = .next t :=
  ⟨by decide, by decide, ⟨_, rfl⟩⟩

theorem witness_CountersFitTheirWidths :
    (sending 1 [(2, 0x81#8)] 2 0#3 3 []).Inv ∧ 3 * (tiny 1).N ≤ 2 ^ 4 ∧
    max (tiny 1).T_BIT (tiny 1).T_RESET < 2 ^ 3 := by decide

theorem witness_IdleIsReachedWithinAFrame :
    (sending 1 [(0, 0xA5#8)] 0 7#3 0 [offer 0#64]).Inv ∧
    (sending 1 [(0, 0xA5#8)] 0 7#3 0 [offer 0#64]).noReset (tiny 1).D_FRAME := by decide

theorem witness_AssemblerWords :
    (∃ w, assembleCore (.setcolor 65535 255 0 1) = some w) ∧ 2 ^ 64 - 1 < 2 ^ 64 :=
  ⟨⟨_, rfl⟩, by decide⟩

theorem witness_PseudoInstructionsExpand : 65536 ≤ 65536 ∧ 65535 < 65536 := by decide

theorem witness_FillPaintsEveryLed :
    (idle 2 [(3, 9#8)] []).cfg.wf ∧ (idle 2 [(3, 9#8)] []).FB.wf = true ∧ (idle 2 [(3, 9#8)] []).st = .idle ∧
    (idle 2 [(3, 9#8)] [offer (encode (.setColor 0 1#8 2#8 3#8)), offer (encode (.setColor 1 1#8 2#8 3#8)),
      rst]).inputs =
      ((List.range (tiny 2).N).map fun i => ⟨false, true, encode (.setColor i 1#8 2#8 3#8)⟩) ++ [rst] := by
  decide

end Sys2Proof.Tests
end

section
/-! PROOFS. The derived widths of a build and the counters they hold (00_scope.md R11). -/

namespace Sys2Proof

/-- The widths that hold the byte pointer, at least 1 bit wide, are those from `PTR_W` on. -/
theorem Config.PTR_W_le_iff (c : Config) (w : Nat) :
    c.PTR_W ≤ w ↔ 1 ≤ w ∧ 3 * c.N ≤ 2 ^ w := by
  rw [Config.PTR_W, max_le_iff, Nat.clog_le_iff_le_pow one_lt_two]

/-- The widths that hold the timing counter's limits are those from `TCNT_W` on. -/
theorem Config.TCNT_W_le_iff (c : Config) (w : Nat) :
    c.TCNT_W ≤ w ↔ max c.T_BIT c.T_RESET < 2 ^ w := by
  rw [Config.TCNT_W, Nat.clog_le_iff_le_pow one_lt_two, Nat.succ_le_iff]

end Sys2Proof

namespace Sys2Proof.Machine

/-- The byte pointer stays within the frame buffer of a legal build. -/
theorem State.Inv.ptr_lt {s : State} (h : s.Inv) : s.ptr < 3 * s.cfg.N := by
  obtain ⟨hwf, -, -, hptr⟩ := h
  have hN : 1 ≤ s.cfg.N := hwf.1
  rw [Config.fbSize] at hptr
  omega

/-- The timing counter stays below the longer of the bit period and the gap, in each FSM state by its own
clause of R30. -/
theorem State.Inv.tcnt_lt {s : State} (h : s.Inv) : s.tcnt < max s.cfg.T_BIT s.cfg.T_RESET := by
  obtain ⟨⟨-, -, hbit, -, -, -, hreset⟩, -, ⟨hidle, hsend, hgap⟩, -⟩ := h
  rw [lt_max_iff]
  cases hst : s.st with
  | idle =>
    have htcnt := hidle hst
    omega
  | send =>
    obtain ⟨htcnt, -, -⟩ := hsend hst
    omega
  | gap =>
    have htcnt := hgap hst
    omega

/-- Settles O46: each width is characterised by the counters' limits it holds, and the invariant keeps both
counters below those limits. -/
theorem countersFitTheirWidths : Obligations.CountersFitTheirWidths := by
  have hptrW (c : Config) := (c.PTR_W_le_iff c.PTR_W).mp le_rfl
  have htcntW (c : Config) := (c.TCNT_W_le_iff c.TCNT_W).mp le_rfl
  refine ⟨fun s h => ⟨?_, ?_⟩, fun c => ⟨(hptrW c).1, (hptrW c).2, ?_⟩, fun c => ⟨htcntW c, ?_⟩⟩
  · exact h.ptr_lt.trans_le (hptrW s.cfg).2
  · exact h.tcnt_lt.trans (htcntW s.cfg)
  · exact fun w hpos hw => (c.PTR_W_le_iff w).mpr ⟨hpos, hw⟩
  · exact fun w => (c.TCNT_W_le_iff w).mpr

end Sys2Proof.Machine
end

section
/-! PROOFS. The handshake and the status register as functions of the state (10_state.md R33, R36, R37). -/

namespace Sys2Proof.Machine

/-! ### The command handshake -/

theorem cmdReady_false_iff {s : State} : s.cmdReady = false ↔ s.input.rst = true ∨ s.st ≠ .idle := by
  rw [← Bool.not_eq_true, cmdReady_iff, not_and_or, Bool.not_eq_false, or_comm]

theorem stalled_of_busy {s : State} (hs : s.st ≠ .idle) (hv : s.input.cmdValid = true) :
    s.stalled = true := by
  simp [State.stalled, hv, cmdReady_false_of_busy hs]

/-- A cycle in which no word can be accepted depends on its inputs through `rst` alone. -/
theorem cycle_eq_of_not_ready {i j : Input} {s : State} (hij : i.rst = j.rst)
    (h : i.rst = true ∨ s.st ≠ .idle) : cycle i s = cycle j s := by
  cases hi : i.rst with
  | true => rw [cycle_reset hi, cycle_reset (hij ▸ hi)]
  | false =>
    have hj : j.rst = false := hij ▸ hi
    cases hs : s.st with
    | idle => simp [hi, hs] at h
    | send => rw [cycle_send hi hs, cycle_send hj hs]
    | gap => rw [cycle_gap hi hs, cycle_gap hj hs]

/-- Settles O8: `cmd_ready` reads the FSM state and `rst` only, and an accepted word is the word case of the
cycle. -/
theorem commandReadyIsIdleWithoutReset : Obligations.CommandReadyIsIdleWithoutReset := by
  refine ⟨fun s => cmdReady_iff, fun s v w is => rfl, fun s => ?_, fun s ha => ?_, fun s hs hv => ?_⟩
  · rw [accepted_iff, cmdReady_iff]
  · obtain ⟨hv, hs, hr⟩ := accepted_iff.mp ha
    exact cycle_word hr hs hv
  · exact ⟨stalled_of_busy hs hv, by simp [State.accepted, cmdReady_false_of_busy hs]⟩

/-- Settles O9: with `cmd_ready = 0` the cycle is a reset, or a step of the serializer or of the gap timer,
and none of these looks at the offered word. -/
theorem stalledWordHasNoEffect : Obligations.StalledWordHasNoEffect := by
  intro s v w hready
  exact cycle_eq_of_not_ready (i := ⟨s.input.rst, v, w⟩) (s := s.advance) rfl
    (cmdReady_false_iff.mp hready)

/-! ### The status register -/

theorem status_flags (s : State) :
    s.status.getLsbD 0 = s.BUSY ∧ s.status.getLsbD 1 = s.TX ∧ s.status.getLsbD 2 = s.GAPF ∧
      s.status.getLsbD 3 = s.ILL := by
  simp only [State.status, BitVec.getLsbD_append]
  simp

theorem status_high (s : State) : s.status.extractLsb' 4 4 = 0#4 := by
  apply BitVec.eq_of_getLsbD_eq
  intro i hi
  simp only [State.status, BitVec.getLsbD_extractLsb', BitVec.getLsbD_append, hi, decide_true,
    Bool.true_and]
  repeat (rw [if_neg (by omega)])
  simp

theorem status_resetEdge (s : State) : (resetEdge s).status = 0x05#8 := by
  simp only [State.status, State.BUSY, State.TX, State.GAPF, resetEdge_st, resetEdge_ILL]
  decide

/-- Settles O22: each bit of `status` is its flag, and each flag reads the FSM state or ILL. -/
theorem statusBitsAreTheFlags : Obligations.StatusBitsAreTheFlags := by
  refine ⟨fun s => ?_, fun s is => rfl, status_resetEdge⟩
  obtain ⟨hbusy, htx, hgapf, hill⟩ := status_flags s
  refine ⟨?_, ?_, ?_, hill, status_high s⟩
  · rw [hbusy, BUSY_iff]
  · rw [htx, TX_iff]
  · rw [hgapf, GAPF_iff]

end Sys2Proof.Machine
end

section
/-! PROOFS. The invariant of 10_state.md R30: every operation keeps it, so every step does, and so every run
from a reset meets it. -/

namespace Sys2Proof.Machine

/-! ### The operations keep the invariant -/

theorem advance_inv {s : State} (h : s.Inv) : s.advance.Inv := h

theorem resetEdge_inv {s : State} (hwf : s.cfg.wf) : (resetEdge s).Inv :=
  ⟨hwf, by simp [State.FBok], by simp [State.countersOk], by simp⟩

/-- A frame start puts the serializer at bit 7 of byte 0, so it needs no more than the buffer's form. -/
theorem startFrame_inv {s : State} (hwf : s.cfg.wf) (hFB : s.FBok) :
    (startFrame (s.FB.read 0) s).Inv :=
  ⟨hwf, hFB, by simp [State.countersOk], by simp⟩

theorem zeroFB_FBok (s : State) : s.zeroFB.FBok := by simp [State.FBok]

theorem raiseIllegalCommand_inv {s : State} (h : s.Inv) : (raiseIllegalCommand s).Inv := h

/-- A store to an LED in range keeps the invariant where `sh` is not bound to FB. -/
theorem storeLed_inv {s : State} {i : Nat} {r g b : Byte} (h : s.Inv) (hs : s.st ≠ .send)
    (hi : i < s.cfg.N) : (s.storeLed i r g b).Inv := by
  obtain ⟨hwf, ⟨hform, hbelow⟩, ⟨hidle, -, hgap⟩, hptr⟩ := h
  exact ⟨hwf, ⟨storeLed_wf hform, storeLed_below hbelow hi⟩, ⟨hidle, fun hst => absurd hst hs, hgap⟩, hptr⟩

theorem runWord_inv {w : Word} {s t : State} (h : s.Inv) (hs : s.st = .idle)
    (ht : runWord w s = .next t) : t.Inv := by
  have ⟨hwf, hFB, _, _⟩ := h
  rcases runWord_cases ht with ⟨-, rfl⟩ | ⟨-, rfl⟩ | ⟨i, r, g, b, -, ⟨hi, rfl⟩ | ⟨-, rfl⟩⟩ | ⟨-, rfl⟩ |
    ⟨-, -, rfl⟩
  · exact raiseIllegalCommand_inv h
  · exact h
  · exact storeLed_inv h (by simp [hs]) hi
  · exact h
  · exact startFrame_inv hwf (zeroFB_FBok s)
  · exact startFrame_inv hwf hFB

/-- One shift of `sh` and one bit down: the shift register still holds its byte from the current bit on
(R30). -/
theorem shiftLeft_next_bit {x sh : Byte} {n : BitVec 3} (hn : 0#3 < n) (hsh : sh = x <<< (7 - n.toNat)) :
    sh <<< 1 = x <<< (7 - (n - 1#3).toNat) := by
  have hlt := n.isLt
  have hpos : 0 < n.toNat := BitVec.lt_def.mp hn
  have hpred : (n - 1#3).toNat = n.toNat - 1 := by bv_omega
  have hexp : 7 - (n - 1#3).toNat = 7 - n.toNat + 1 := by omega
  rw [hexp, BitVec.shiftLeft_add, hsh]

theorem sendStep_inv {s t : State} (h : s.Inv) (hs : s.st = .send) (ht : sendStep s = .next t) :
    t.Inv := by
  obtain ⟨hwf, hFB, ⟨-, hsend, -⟩, hptr⟩ := h
  obtain ⟨htcnt, -, hsh⟩ := hsend hs
  rcases sendStep_cases s with ⟨hmid, e⟩ | ⟨-, hbit, e⟩ | ⟨-, -, hbyte, e⟩ | ⟨-, -, -, e⟩ <;>
    obtain rfl := Host.Outcome.next.inj (e.symm.trans ht)
  · have htcnt' : s.tcnt + 1 ≤ s.cfg.T_BIT - 1 := hmid
    exact ⟨hwf, hFB, by simp [State.countersOk, hs, htcnt', hptr, ← hsh], hptr⟩
  · exact ⟨hwf, hFB, by simp [State.countersOk, hs, hptr, shiftLeft_next_bit hbit hsh], hptr⟩
  · have hptr' : s.ptr + 1 ≤ s.cfg.fbSize - 1 := hbyte
    exact ⟨hwf, hFB, by simp [State.countersOk, hs, hptr'], hptr'⟩
  · exact ⟨hwf, hFB, by simp [State.countersOk], hptr⟩

theorem gapStep_inv {s : State} (h : s.Inv) (hs : s.st = .gap) : (gapStep s).Inv := by
  obtain ⟨hwf, hFB, -, hptr⟩ := h
  rcases gapStep_cases s with ⟨hmid, e⟩ | ⟨-, e⟩ <;> rw [e]
  · have htcnt' : s.tcnt + 1 ≤ s.cfg.T_RESET - 1 := hmid
    exact ⟨hwf, hFB, by simp [State.countersOk, hs, htcnt'], hptr⟩
  · exact ⟨hwf, hFB, by simp [State.countersOk], hptr⟩

theorem cycle_inv {inp : Input} {s t : State} (h : s.Inv) (ht : cycle inp s = .next t) : t.Inv := by
  rcases cycle_cases ht with ⟨-, rfl⟩ | ⟨-, -, -, rfl⟩ | ⟨-, hs, -, hw⟩ | ⟨-, hs, hsend⟩ | ⟨-, hs, rfl⟩
  · exact resetEdge_inv h.1
  · exact h
  · exact runWord_inv h hs hw
  · exact sendStep_inv h hs hsend
  · exact gapStep_inv h hs

/-- Settles O44: by the cases of the cycle, each of which keeps the invariant. -/
theorem stepKeepsTheInvariant : Obligations.StepKeepsTheInvariant :=
  fun _ _ h ht => cycle_inv (advance_inv h) ht

/-- Settles O43: the reset edge of a legal build meets the invariant, and the reset state is the reset edge
of the default build. -/
theorem resetStateMeetsTheInvariant : Obligations.ResetStateMeetsTheInvariant :=
  ⟨resetEdge_inv (s := State.reset) (by decide), fun _ => resetEdge_inv⟩

/-! ### Runs -/

/-- What every step keeps, every run keeps. -/
theorem cycles_induction {P : State → Prop} (hstep : ∀ s t, P s → step s = .next t → P t) {n : Nat}
    {s t : State} (hs : P s) (ht : cycles n s = .next t) : P t := by
  induction n generalizing s with
  | zero =>
    obtain rfl : s = t := by simpa using ht
    exact hs
  | succ n ih =>
    cases hu : step s with
    | next u => exact ih (hstep s u hs hu) (cycles_succ hu ▸ ht)
    | fault r => simp [cycles, hu] at ht
    | refused r => simp [cycles, hu] at ht

/-- A reset cycle of a legal build, and any run after it, ends in a state that meets the invariant. -/
theorem inv_of_reset_run {s t : State} {n : Nat} (hwf : s.cfg.wf) (hr : s.input.rst = true)
    (ht : cycles (n + 1) s = .next t) : t.Inv := by
  have hreset : step s = .next (resetEdge s.advance) := cycle_reset hr
  rw [cycles_succ hreset] at ht
  exact cycles_induction stepKeepsTheInvariant (resetEdge_inv (s := s.advance) hwf) ht

/-- The top bit of a byte shifted up from bit `n` is bit `n`. -/
theorem getLsbD_seven_shiftLeft (x : Byte) (n : BitVec 3) :
    (x <<< (7 - n.toNat)).getLsbD 7 = x.getLsbD n.toNat := by
  have hle : n.toNat ≤ 7 := Nat.le_of_lt_succ n.isLt
  have hge : ¬ 7 < 7 - n.toNat := by omega
  rw [BitVec.getLsbD_shiftLeft, Nat.sub_sub_self hle]
  simp [hge]

/-- Settles O45: the invariant holds at the reset edge and every step keeps it; the two readings of `sh` are
its clause for SEND as a number and as a bit. -/
theorem reachableStatesMeetTheSpecsInvariants : Obligations.ReachableStatesMeetTheSpecsInvariants := by
  intro s t n hwf hr ht
  obtain ⟨-, -, ⟨hidle, hsend, hgap⟩, -⟩ := inv_of_reset_run hwf hr ht
  refine ⟨hidle, fun hs => ?_, hgap⟩
  obtain ⟨htcnt, hptr, hsh⟩ := hsend hs
  refine ⟨htcnt, hptr, ?_, ?_⟩
  · rw [hsh, BitVec.toNat_shiftLeft, Nat.shiftLeft_eq]
  · rw [hsh, getLsbD_seven_shiftLeft]

end Sys2Proof.Machine
end

section
/-! PROOFS. The events that move the FSM and the flags that show them (10_state.md R35). -/

namespace Sys2Proof.Machine

/-! ### The events -/

/-- SHOW or CLEAR is accepted in this cycle. -/
def State.frameStarts (s : State) : Bool :=
  s.accepted && (decode s.input.cmdData == some .showFrame || decode s.input.cmdData == some .clear)

/-- This is the last cycle of the last bit of a frame. -/
def State.lastBitEnds (s : State) : Bool :=
  s.st == .send && s.tcnt == s.cfg.T_BIT - 1 && s.bitn == 0#3 && s.ptr == 3 * s.cfg.N - 1

/-- This is the last cycle of a gap. -/
def State.gapEnds (s : State) : Bool := s.st == .gap && s.tcnt == s.cfg.T_RESET - 1

theorem frameStarts_iff {s : State} : s.frameStarts = true ↔ s.accepted = true ∧
    (decode s.input.cmdData = some .showFrame ∨ decode s.input.cmdData = some .clear) := by
  simp [State.frameStarts]

theorem lastBitEnds_iff {s : State} : s.lastBitEnds = true ↔
    s.st = .send ∧ s.tcnt = s.cfg.T_BIT - 1 ∧ s.bitn = 0#3 ∧ s.ptr = 3 * s.cfg.N - 1 := by
  simp [State.lastBitEnds, and_assoc]

theorem gapEnds_iff {s : State} : s.gapEnds = true ↔ s.st = .gap ∧ s.tcnt = s.cfg.T_RESET - 1 := by
  simp [State.gapEnds]

/-- A word that starts a frame is accepted, so the block is in IDLE. -/
theorem frameStarts_of_busy {s : State} (h : s.st ≠ .idle) : s.frameStarts = false := by
  simp [State.frameStarts, State.accepted, cmdReady_false_of_busy h]

theorem lastBitEnds_of_not_send {s : State} (h : s.st ≠ .send) : s.lastBitEnds = false := by
  simp [State.lastBitEnds, h]

theorem gapEnds_of_not_gap {s : State} (h : s.st ≠ .gap) : s.gapEnds = false := by
  simp [State.gapEnds, h]

/-- The FSM state after this cycle, by its event. -/
def State.nextSt (s : State) : Fsm :=
  if s.input.rst = true then .gap
  else match s.st with
    | .idle => if s.frameStarts = true then .send else .idle
    | .send => if s.lastBitEnds = true then .gap else .send
    | .gap => if s.gapEnds = true then .idle else .gap

/-! ### The FSM moves at its events -/

theorem runWord_st {w : Word} {s t : State} (hs : s.st = .idle) (ht : runWord w s = .next t) :
    t.st = if decode w = some .showFrame ∨ decode w = some .clear then .send else .idle := by
  rcases runWord_cases ht with ⟨hd, rfl⟩ | ⟨hd, rfl⟩ | ⟨i, r, g, b, hd, ⟨-, rfl⟩ | ⟨-, rfl⟩⟩ | ⟨hd, rfl⟩ |
    ⟨hd, -, rfl⟩ <;> simp [hd, hs]

theorem sendStep_st {s t : State} (h : s.Inv) (hs : s.st = .send) (ht : sendStep s = .next t) :
    t.st = if s.lastBitEnds = true then .gap else .send := by
  obtain ⟨-, -, ⟨-, hsend, -⟩, hptr⟩ := h
  obtain ⟨htcnt, -, -⟩ := hsend hs
  rw [Config.fbSize] at hptr
  rcases sendStep_cases s with ⟨hmid, e⟩ | ⟨-, hbit, e⟩ | ⟨-, -, hbyte, e⟩ | ⟨hend, hbit, hlast, e⟩ <;>
    obtain rfl := Host.Outcome.next.inj (e.symm.trans ht)
  · have hne : s.tcnt ≠ s.cfg.T_BIT - 1 := hmid.ne
    simp [lastBitEnds_iff, hne, hs]
  · have hne : s.bitn ≠ 0#3 := by
      rintro hz
      simp [hz] at hbit
    simp [lastBitEnds_iff, hne, hs]
  · have hne : s.ptr ≠ 3 * s.cfg.N - 1 := hbyte.ne
    simp [lastBitEnds_iff, hne, hs]
  · rw [Config.fbSize] at hlast
    have hlast' : s.lastBitEnds = true := lastBitEnds_iff.mpr ⟨hs, by omega, hbit, by omega⟩
    simp [hlast']

theorem gapStep_st {s : State} (h : s.Inv) (hs : s.st = .gap) :
    (gapStep s).st = if s.gapEnds = true then .idle else .gap := by
  obtain ⟨-, -, ⟨-, -, hgap⟩, -⟩ := h
  have htcnt := hgap hs
  rcases gapStep_cases s with ⟨hmid, e⟩ | ⟨hend, e⟩ <;> rw [e]
  · have hne : s.tcnt ≠ s.cfg.T_RESET - 1 := hmid.ne
    simp [gapEnds_iff, hne, hs]
  · have hend' : s.gapEnds = true := gapEnds_iff.mpr ⟨hs, by omega⟩
    simp [hend']

theorem nextSt_of_reset {s : State} (hr : s.input.rst = true) : s.nextSt = .gap := if_pos hr

section NextSt

variable {s : State} (hr : s.input.rst = false)

include hr

theorem nextSt_of_idle (hs : s.st = .idle) : s.nextSt = if s.frameStarts = true then .send else .idle := by
  simp only [State.nextSt, hr, hs, Bool.false_eq_true, if_false]

theorem nextSt_of_send (hs : s.st = .send) : s.nextSt = if s.lastBitEnds = true then .gap else .send := by
  simp only [State.nextSt, hr, hs, Bool.false_eq_true, if_false]

theorem nextSt_of_gap (hs : s.st = .gap) : s.nextSt = if s.gapEnds = true then .idle else .gap := by
  simp only [State.nextSt, hr, hs, Bool.false_eq_true, if_false]

end NextSt

/-- Under the invariant every step moves the FSM as `nextSt` says. -/
theorem step_st {s t : State} (h : s.Inv) (ht : step s = .next t) : t.st = s.nextSt := by
  rcases cycle_cases ht with ⟨hr, rfl⟩ | ⟨hr, hs, hv, rfl⟩ | ⟨hr, hs, hv, hw⟩ | ⟨hr, hs, hsend⟩ |
    ⟨hr, hs, rfl⟩
  · rw [nextSt_of_reset hr, resetEdge_st]
  · have hf : s.frameStarts = false := by simp [State.frameStarts, State.accepted, hv]
    rw [advance_st] at hs
    simp [nextSt_of_idle hr hs, hf, hs]
  · have ha : s.accepted = true := accepted_iff.mpr ⟨hv, hs, hr⟩
    rw [nextSt_of_idle hr hs, runWord_st hs hw]
    simp [frameStarts_iff, ha]
  · rw [nextSt_of_send hr hs]
    exact sendStep_st (s := s.advance) (advance_inv h) hs hsend
  · rw [nextSt_of_gap hr hs]
    exact gapStep_st (s := s.advance) (advance_inv h) hs

/-! ### ILL -/

theorem runWord_ILL {w : Word} {s t : State} (ht : runWord w s = .next t) :
    t.ILL = true ↔ s.ILL = true ∨ decode w = none := by
  rcases runWord_cases ht with ⟨hd, rfl⟩ | ⟨hd, rfl⟩ | ⟨i, r, g, b, hd, ⟨-, rfl⟩ | ⟨-, rfl⟩⟩ | ⟨hd, rfl⟩ |
    ⟨hd, -, rfl⟩ <;> simp [hd]

theorem sendStep_ILL {s t : State} (ht : sendStep s = .next t) : t.ILL = s.ILL := by
  rcases sendStep_cases s with ⟨-, e⟩ | ⟨-, -, e⟩ | ⟨-, -, -, e⟩ | ⟨-, -, -, e⟩ <;>
    obtain rfl := Host.Outcome.next.inj (e.symm.trans ht) <;> rfl

theorem gapStep_ILL (s : State) : (gapStep s).ILL = s.ILL := by
  rcases gapStep_cases s with ⟨-, e⟩ | ⟨-, e⟩ <;> rw [e] <;> rfl

/-- ILL is set by an accepted illegal word and cleared by reset, in every state. -/
theorem step_ILL_iff {s t : State} (ht : step s = .next t) :
    t.ILL = true ↔ s.input.rst = false ∧
      (s.ILL = true ∨ (s.accepted = true ∧ decode s.input.cmdData = none)) := by
  rcases cycle_cases ht with ⟨hr, rfl⟩ | ⟨hr, hs, hv, rfl⟩ | ⟨hr, hs, hv, hw⟩ | ⟨hr, hs, hsend⟩ |
    ⟨hr, hs, rfl⟩
  · simp [hr]
  · simp [hr, hv, accepted_iff]
  · have ha : s.accepted = true := accepted_iff.mpr ⟨hv, hs, hr⟩
    simp [runWord_ILL hw, hr, ha]
  · rw [advance_st] at hs
    simp [sendStep_ILL hsend, hr, hs, accepted_iff]
  · rw [advance_st] at hs
    simp [gapStep_ILL, hr, hs, accepted_iff]

/-! ### The flags read off the next FSM state -/

section Flags

variable {s : State}

/-- BUSY (R35). -/
theorem nextSt_ne_idle_iff : s.nextSt ≠ .idle ↔
    s.input.rst = true ∨ s.frameStarts = true ∨ (s.BUSY = true ∧ ¬ s.gapEnds = true) := by
  cases hr : s.input.rst with
  | true => simp [nextSt_of_reset hr]
  | false =>
    cases hs : s.st with
    | idle => simp [nextSt_of_idle hr hs, hs]
    | send => simp [nextSt_of_send hr hs, hs, gapEnds_of_not_gap, ite_eq_iff]
    | gap => simp [nextSt_of_gap hr hs, hs, frameStarts_of_busy]

/-- TX (R35). -/
theorem nextSt_eq_send_iff : s.nextSt = .send ↔
    s.input.rst = false ∧ (s.frameStarts = true ∨ (s.TX = true ∧ ¬ s.lastBitEnds = true)) := by
  cases hr : s.input.rst with
  | true => simp [nextSt_of_reset hr]
  | false =>
    cases hs : s.st with
    | idle => simp [nextSt_of_idle hr hs, hs]
    | send => simp [nextSt_of_send hr hs, hs, frameStarts_of_busy]
    | gap => simp [nextSt_of_gap hr hs, hs, frameStarts_of_busy, ite_eq_iff]

/-- GAPF (R35). -/
theorem nextSt_eq_gap_iff : s.nextSt = .gap ↔
    s.input.rst = true ∨ s.lastBitEnds = true ∨ (s.GAPF = true ∧ ¬ s.gapEnds = true) := by
  cases hr : s.input.rst with
  | true => simp [nextSt_of_reset hr]
  | false =>
    cases hs : s.st with
    | idle => simp [nextSt_of_idle hr hs, hs, lastBitEnds_of_not_send, ite_eq_iff]
    | send => simp [nextSt_of_send hr hs, hs]
    | gap => simp [nextSt_of_gap hr hs, hs, lastBitEnds_of_not_send]

end Flags

/-! ### No command reads a flag -/

theorem exec_setColor_of_lt {s : State} {i : Nat} {r g b : Byte} (h : i < s.cfg.N) :
    exec (.setColor i r g b) s = .next (s.storeLed i r g b) := by
  simp [exec, execSetColor, State.inRange, h]

theorem exec_setColor_of_not_lt {s : State} {i : Nat} {r g b : Byte} (h : ¬ i < s.cfg.N) :
    exec (.setColor i r g b) s = .next s := by
  simp [exec, execSetColor, State.inRange, h]

theorem exec_showFrame_of_pos {s : State} (h : 0 < s.cfg.fbSize) :
    exec .showFrame s = .next (startFrame (s.FB.read 0) s) :=
  readFB_of_lt (k := fun b => .next (startFrame b s)) h

theorem exec_showFrame_of_not_pos {s : State} (h : ¬ 0 < s.cfg.fbSize) :
    exec .showFrame s = .fault (.absentOffset 0) :=
  if_neg h

/-- A command answers alike whatever the flags are, but for the flags it leaves as they were. -/
theorem exec_flags_irrelevant {i : Instr} {s t : State} (f : Fsm) (b : Bool) (ht : exec i s = .next t) :
    ∃ t', exec i { s with st := f, ILL := b } = .next t' ∧ { t' with st := t.st, ILL := t.ILL } = t := by
  cases i with
  | nop =>
    obtain rfl := Host.Outcome.next.inj ht
    exact ⟨_, rfl, rfl⟩
  | setColor idx r g b =>
    by_cases hi : idx < s.cfg.N
    · obtain rfl := Host.Outcome.next.inj ((exec_setColor_of_lt hi).symm.trans ht)
      exact ⟨_, exec_setColor_of_lt hi, rfl⟩
    · obtain rfl := Host.Outcome.next.inj ((exec_setColor_of_not_lt hi).symm.trans ht)
      exact ⟨_, exec_setColor_of_not_lt hi, rfl⟩
  | clear =>
    obtain rfl := Host.Outcome.next.inj ht
    exact ⟨_, rfl, rfl⟩
  | showFrame =>
    by_cases h0 : 0 < s.cfg.fbSize
    · obtain rfl := Host.Outcome.next.inj ((exec_showFrame_of_pos h0).symm.trans ht)
      exact ⟨_, exec_showFrame_of_pos h0, rfl⟩
    · rw [exec_showFrame_of_not_pos h0] at ht
      contradiction

/-- Settles O23: BUSY, TX and GAPF show the FSM state, which moves at its events alone; ILL has its own
events; and a command's answer is the same under any flags. -/
theorem flagsChangeOnlyAtTheirEvents : Obligations.FlagsChangeOnlyAtTheirEvents := by
  refine ⟨fun s t h ht => ?_, fun i s t f b => exec_flags_irrelevant f b⟩
  intro starts lastBitEnds gapEnds
  have hst := step_st h ht
  refine ⟨?_, ?_, ?_, step_ILL_iff ht⟩
  · rw [BUSY_iff, hst, nextSt_ne_idle_iff, frameStarts_iff, gapEnds_iff]
  · rw [TX_iff, hst, nextSt_eq_send_iff, frameStarts_iff, lastBitEnds_iff]
  · rw [GAPF_iff, hst, nextSt_eq_gap_iff, lastBitEnds_iff, gapEnds_iff]

end Sys2Proof.Machine
end

section
/-! PROOFS. The writers of the frame buffer, its constancy while the block is busy, and the commands that do
nothing more the second time (20_memory.md R51, R55, R57). -/

namespace Sys2Proof.Machine

/-! ### FB while the block is busy -/

theorem sendStep_FB {s t : State} (ht : sendStep s = .next t) : t.FB = s.FB := by
  rcases sendStep_cases s with ⟨-, e⟩ | ⟨-, -, e⟩ | ⟨-, -, -, e⟩ | ⟨-, -, -, e⟩ <;>
    obtain rfl := Host.Outcome.next.inj (e.symm.trans ht) <;> rfl

theorem gapStep_FB (s : State) : (gapStep s).FB = s.FB := by
  rcases gapStep_cases s with ⟨-, e⟩ | ⟨-, e⟩ <;> rw [e] <;> rfl

theorem step_FB_of_busy {s t : State} (hs : s.st ≠ .idle) (hr : s.input.rst = false)
    (ht : step s = .next t) : t.FB = s.FB := by
  cases hst : s.st with
  | idle => exact absurd hst hs
  | send => exact sendStep_FB (s := s.advance) ((step_send hr hst).symm.trans ht)
  | gap =>
    obtain rfl := Host.Outcome.next.inj ((step_gap hr hst).symm.trans ht)
    exact gapStep_FB s.advance

/-- Every cycle of a frame, to the first IDLE cycle after it, has the FB of the frame's first SEND cycle: the
cycle is one of SEND, one of GAP, or that IDLE cycle (R141). -/
theorem cycles_frame_read {s : State} {F : Memory} (hc : s.cfg.wf) (h : s.startsFrame F)
    (hn : s.noReset (s.cfg.D_FRAME + 1)) {m : Nat} (hm : m ≤ s.cfg.D_FRAME) :
    ∃ t, cycles (m + 1) s = .next t ∧ ∀ a, t.FB.read a = F.read a := by
  obtain ⟨b, -, -, -, -, -, hF, hsend, hgap, hidle⟩ := cycles_frame hc h hn
  have hD : s.cfg.D_FRAME = s.cfg.sendLen + s.cfg.T_RESET := rfl
  by_cases hm1 : m < s.cfg.sendLen
  · exact ⟨_, hsend m hm1, hF⟩
  obtain ⟨i, rfl⟩ := Nat.exists_eq_add_of_le (Nat.le_of_not_lt hm1)
  by_cases hi : i < s.cfg.T_RESET
  · exact ⟨_, hgap i hi, hF⟩
  have hend : s.cfg.sendLen + i = s.cfg.D_FRAME := by omega
  rw [hend]
  exact ⟨_, hidle, hF⟩

/-- Settles O25: the serializer and the gap timer write no byte, and every cycle of a frame has the FB its
start left. -/
theorem frameBufferIsConstantDuringAFrame : Obligations.FrameBufferIsConstantDuringAFrame := by
  refine ⟨fun s t => step_FB_of_busy, fun s F hc h hn n hpos hle => ?_⟩
  obtain ⟨m, rfl⟩ := Nat.exists_eq_add_of_le' hpos
  exact cycles_frame_read hc h hn (Nat.le_of_succ_le_succ hle)

/-! ### The second time -/

/-- Storing the colour that an LED already has changes nothing. -/
theorem storeLed_of_read {s : State} {i : Nat} {r g b : Byte} (h : s.FB.wf = true)
    (hg : s.FB.read (greenOffset i) = g) (hr : s.FB.read (redOffset i) = r)
    (hb : s.FB.read (blueOffset i) = b) : s.storeLed i r g b = s := by
  subst hg hr hb
  simp only [State.storeLed, State.writeFB, Memory.write_read h]

theorem storeLed_storeLed {s : State} {i : Nat} {r g b : Byte} (h : s.FB.wf = true) :
    (s.storeLed i r g b).storeLed i r g b = s.storeLed i r g b := by
  obtain ⟨hg, hr, hb⟩ := storeLed_read_led h
  exact storeLed_of_read (storeLed_wf h) hg hr hb

theorem exec_setColor_again {s t : State} {i : Nat} {r g b : Byte} (h : s.FB.wf = true)
    (ht : exec (.setColor i r g b) s = .next t) : exec (.setColor i r g b) t = .next t := by
  by_cases hi : i < s.cfg.N
  · obtain rfl := Host.Outcome.next.inj ((exec_setColor_of_lt hi).symm.trans ht)
    rw [exec_setColor_of_lt (s := s.storeLed i r g b) hi, storeLed_storeLed h]
  · obtain rfl := Host.Outcome.next.inj ((exec_setColor_of_not_lt hi).symm.trans ht)
    exact ht

theorem exec_clear (s : State) : exec .clear s = .next (startFrame 0x00#8 s.zeroFB) := rfl

/-- Settles O15: the LED already has the colour stored again, and CLEAR sets every field but ILL, the build
and the inputs to the same value from every state. -/
theorem setColorAndClearAreIdempotent : Obligations.SetColorAndClearAreIdempotent := by
  refine ⟨fun s t i r g b => exec_setColor_again, fun s t u ht _ => ?_⟩
  obtain rfl := Host.Outcome.next.inj ((exec_clear s).symm.trans ht)
  exact exec_clear u

/-! ### The writers of FB -/

/-- A byte that a stored colour changes is one of the LED's three. -/
theorem storeLed_changed {s : State} {i a : Nat} {r g b : Byte}
    (h : (s.storeLed i r g b).FB.read a ≠ s.FB.read a) : 3 * i ≤ a ∧ a < 3 * i + 3 := by
  by_contra hout
  refine h (storeLed_read_other ?_ ?_ ?_) <;> simp only [greenOffset, redOffset, blueOffset] <;> omega

/-- An accepted word that changes a byte is CLEAR, or SET_COLOR in range with that byte in its LED. -/
theorem runWord_changed {w : Word} {s t : State} {a : Nat} (ht : runWord w s = .next t)
    (h : t.FB.read a ≠ s.FB.read a) :
    decode w = some .clear ∨
      ∃ i r g b, decode w = some (.setColor i r g b) ∧ i < s.cfg.N ∧ 3 * i ≤ a ∧ a < 3 * i + 3 := by
  rcases runWord_cases ht with ⟨-, rfl⟩ | ⟨-, rfl⟩ | ⟨i, r, g, b, hd, ⟨hi, rfl⟩ | ⟨-, rfl⟩⟩ | ⟨hd, -⟩ |
    ⟨-, -, rfl⟩
  · exact absurd rfl h
  · exact absurd rfl h
  · exact .inr ⟨i, r, g, b, hd, hi, storeLed_changed h⟩
  · exact absurd rfl h
  · exact .inl hd
  · exact absurd rfl h

/-- Settles O24: by the cases of the cycle; besides reset, only an accepted word can change a byte. -/
theorem frameBufferHasNoOtherWriter : Obligations.FrameBufferHasNoOtherWriter := by
  intro s t a ht h
  rcases cycle_cases ht with ⟨hr, -⟩ | ⟨-, -, -, rfl⟩ | ⟨hr, hs, hv, hw⟩ | ⟨-, -, hsend⟩ | ⟨-, -, rfl⟩
  · exact .inl hr
  · exact absurd rfl h
  · exact .inr ⟨accepted_iff.mpr ⟨hv, hs, hr⟩, runWord_changed (s := s.advance) hw h⟩
  · exact absurd (congrArg (Memory.read · a) (sendStep_FB hsend)) h
  · exact absurd (congrArg (Memory.read · a) (gapStep_FB s.advance)) h

end Sys2Proof.Machine
end

section
/-! PROOFS. The decoder against the table of words: a legal word is the word of its command, it matches the
row of that command alone, and the other words are of three kinds (30_encoding.md R76 to R78). -/

namespace Sys2Proof

/-! ### The word of a command -/

@[simp] theorem belowOp_cmdWord (op : BitVec 8) : belowOp (cmdWord op 0#16 0#8 0#8 0#8) = 0#56 := by
  simp [belowOp_eq_zero_iff]

theorem cmdWord_of_op_belowOp {w : Word} {op : BitVec 8} (h : opOf w = op ∧ belowOp w = 0#56) :
    cmdWord op 0#16 0#8 0#8 0#8 = w := by
  obtain ⟨rfl, hbelow⟩ := h
  exact cmdWord_of_belowOp hbelow

theorem decode_encode {i : Instr} (h : i.wf = true) : decode (encode i) = some i := by
  cases i with
  | nop => simp [decode, encode]
  | setColor idx r g b =>
    have hidx : idx < 65536 := by simpa [Instr.wf] using h
    simp [decode, encode, Nat.mod_eq_of_lt hidx]
  | clear => simp [decode, encode]
  | showFrame => simp [decode, encode]

theorem encode_of_decode {w : Word} {i : Instr} (h : decode w = some i) : i.wf = true ∧ encode i = w := by
  unfold decode at h
  split_ifs at h with hnop hset hclear hshow <;> obtain rfl := Option.some.inj h
  · exact ⟨rfl, cmdWord_of_op_belowOp hnop⟩
  · obtain ⟨hop, h1, h0⟩ := hset
    refine ⟨by simp [Instr.wf, (idxOf w).isLt], ?_⟩
    rw [encode, BitVec.ofNat_toNat, BitVec.setWidth_eq, ← hop, cmdWord_fields h1 h0]
  · exact ⟨rfl, cmdWord_of_op_belowOp hclear⟩
  · exact ⟨rfl, cmdWord_of_op_belowOp hshow⟩

/-- The decoder reads a command from its own word and from no other. -/
theorem decode_eq_some_iff {w : Word} {i : Instr} : decode w = some i ↔ i.wf = true ∧ w = encode i := by
  constructor
  · intro h
    obtain ⟨hwf, hw⟩ := encode_of_decode h
    exact ⟨hwf, hw.symm⟩
  · rintro ⟨hwf, rfl⟩
    exact decode_encode hwf

theorem existsUnique_decode_eq {i : Instr} (h : i.wf = true) : ∃! w : Word, decode w = some i :=
  ⟨encode i, decode_encode h, fun _ hw => (encode_of_decode hw).2.symm⟩

/-! ### The rows of the table -/

/-- A row with the full mask has one word. -/
theorem and_fullMask_iff {w v : Word} : w &&& 0xFFFFFFFFFFFFFFFF#64 = v ↔ w = v := by
  rw [show 0xFFFFFFFFFFFFFFFF#64 = BitVec.allOnes 64 from rfl, BitVec.and_allOnes]

theorem decode_eq_nop_iff {w : Word} :
    decode w = some .nop ↔ w &&& 0xFFFFFFFFFFFFFFFF#64 = 0x0000000000000000#64 := by
  have hword : encode .nop = 0x0000000000000000#64 := by decide
  simp [decode_eq_some_iff, and_fullMask_iff, hword, Instr.wf]

theorem decode_eq_clear_iff {w : Word} :
    decode w = some .clear ↔ w &&& 0xFFFFFFFFFFFFFFFF#64 = 0x0200000000000000#64 := by
  have hword : encode .clear = 0x0200000000000000#64 := by decide
  simp [decode_eq_some_iff, and_fullMask_iff, hword, Instr.wf]

theorem decode_eq_showFrame_iff {w : Word} :
    decode w = some .showFrame ↔ w &&& 0xFFFFFFFFFFFFFFFF#64 = 0x0300000000000000#64 := by
  have hword : encode .showFrame = 0x0300000000000000#64 := by decide
  simp [decode_eq_some_iff, and_fullMask_iff, hword, Instr.wf]

theorem exists_decode_eq_setColor_iff {w : Word} :
    (∃ idx r g b, decode w = some (.setColor idx r g b)) ↔
      w &&& 0xFFFF0000FF000000#64 = 0x0100000000000000#64 := by
  constructor
  · rintro ⟨idx, r, g, b, h⟩
    obtain ⟨-, rfl⟩ := decode_eq_some_iff.mp h
    simp [and_setColorMask_iff, encode]
  · intro h
    obtain ⟨hop, h1, h0⟩ := and_setColorMask_iff.mp h
    exact ⟨(idxOf w).toNat, redOf w, greenOf w, blueOf w, by simp [decode, hop, h1, h0]⟩

/-- The row that a word matches is the row of the command it decodes to. -/
theorem row_of_matchesRow {w : Word} {i : Instr} (h : matchesRow w i = true) :
    ∃ j, decode w = some j ∧ rowMask i = rowMask j ∧ rowBits i = rowBits j := by
  have hrow : w &&& rowMask i = rowBits i := eq_of_beq h
  cases i with
  | nop => exact ⟨_, decode_eq_nop_iff.mpr hrow, rfl, rfl⟩
  | setColor =>
    obtain ⟨idx, r, g, b, hd⟩ := exists_decode_eq_setColor_iff.mpr hrow
    exact ⟨_, hd, rfl, rfl⟩
  | clear => exact ⟨_, decode_eq_clear_iff.mpr hrow, rfl, rfl⟩
  | showFrame => exact ⟨_, decode_eq_showFrame_iff.mpr hrow, rfl, rfl⟩

/-- The rows do not overlap, because a word decodes to one command. -/
theorem matchesRow_unique {w : Word} {i j : Instr} (hi : matchesRow w i = true)
    (hj : matchesRow w j = true) : rowMask i = rowMask j ∧ rowBits i = rowBits j := by
  obtain ⟨i', hdi, hmi, hbi⟩ := row_of_matchesRow hi
  obtain ⟨j', hdj, hmj, hbj⟩ := row_of_matchesRow hj
  obtain rfl : i' = j' := Option.some.inj (hdi.symm.trans hdj)
  exact ⟨hmi.trans hmj.symm, hbi.trans hbj.symm⟩

theorem decode_isSome_iff {w : Word} : (decode w).isSome = true ↔
    decode w = some .nop ∨ (∃ idx r g b, decode w = some (.setColor idx r g b)) ∨
      decode w = some .clear ∨ decode w = some .showFrame := by
  rcases decode w with _ | (_ | _ | _ | _) <;> simp

/-- Settles O4: a legal word is the word of its command, and each row of the table is the words of one
command. -/
theorem legalWordsAreTheTablesRows : Obligations.LegalWordsAreTheTablesRows := by
  refine ⟨fun w => ?_, fun w => decode_eq_nop_iff, fun w => exists_decode_eq_setColor_iff,
    fun w => decode_eq_clear_iff, fun w => decode_eq_showFrame_iff, existsUnique_decode_eq rfl,
    existsUnique_decode_eq rfl, existsUnique_decode_eq rfl, fun idx r g b => ?_,
    fun w i j => matchesRow_unique⟩
  · rw [decode_isSome_iff, decode_eq_nop_iff, exists_decode_eq_setColor_iff, decode_eq_clear_iff,
      decode_eq_showFrame_iff]
  · exact existsUnique_decode_eq (by simp [Instr.wf, idx.isLt])

/-! ### The illegal words -/

/-- The decoder answers `none` by OP: with no bit below OP for NOP, CLEAR and SHOW, and with zero reserved
fields for SET_COLOR, a word is legal (R77). -/
theorem decode_eq_none_iff {w : Word} : decode w = none ↔
    0x04#8 ≤ opOf w ∨
    (opOf w = 0x01#8 ∧ (rsv1Of w ≠ 0#8 ∨ rsv0Of w ≠ 0#8)) ∨
    ((opOf w = 0x00#8 ∨ opOf w = 0x02#8 ∨ opOf w = 0x03#8) ∧ belowOp w ≠ 0#56) := by
  have hop : opOf w = 0x00#8 ∨ opOf w = 0x01#8 ∨ opOf w = 0x02#8 ∨ opOf w = 0x03#8 ∨
      0x04#8 ≤ opOf w := by bv_omega
  rcases hop with h | h | h | h | h
  · simp [decode, h]
  · simp [decode, h, imp_iff_not_or]
  · simp [decode, h]
  · simp [decode, h]
  · have hne : opOf w ≠ 0x00#8 ∧ opOf w ≠ 0x01#8 ∧ opOf w ≠ 0x02#8 ∧ opOf w ≠ 0x03#8 := by bv_omega
    simp [decode, h, hne]

end Sys2Proof

namespace Sys2Proof.Machine

theorem runWord_of_legal {w : Word} {i : Instr} {s : State} (h : decode w = some i) :
    runWord w s = exec i s := by
  simp only [runWord, h]

theorem runWord_of_illegal {w : Word} {s : State} (h : decode w = none) :
    runWord w s = .next (raiseIllegalCommand s) := by
  simp only [runWord, h, execIllegal]

theorem step_of_accepted {s : State} (h : s.accepted = true) :
    step s = runWord s.input.cmdData s.advance := by
  obtain ⟨hv, hs, hr⟩ := accepted_iff.mp h
  exact cycle_word hr hs hv

/-- Settles O6: the decoder's `none` by OP, and an accepted illegal word raises IllegalCommand alone. -/
theorem illegalWordsAreOfThreeKinds : Obligations.IllegalWordsAreOfThreeKinds :=
  ⟨fun _ => decode_eq_none_iff, fun _ ha hd => (step_of_accepted ha).trans (runWord_of_illegal hd)⟩

end Sys2Proof.Machine
end

section
/-! PROOFS. The assembler: the words of its core lines and of its pseudo-instructions (30_encoding.md R80,
R81). -/

namespace Sys2Proof.Machine

/-! ### Core lines -/

theorem assembleCore_setcolor_of_le {idx r g b : Nat}
    (h : idx ≤ 65535 ∧ r ≤ 255 ∧ g ≤ 255 ∧ b ≤ 255) :
    assembleCore (.setcolor idx r g b) =
      some (encode (.setColor idx (BitVec.ofNat 8 r) (BitVec.ofNat 8 g) (BitVec.ofNat 8 b))) :=
  if_pos h

theorem assembleCore_setcolor_of_not_le {idx r g b : Nat}
    (h : ¬ (idx ≤ 65535 ∧ r ≤ 255 ∧ g ≤ 255 ∧ b ≤ 255)) : assembleCore (.setcolor idx r g b) = none :=
  if_neg h

theorem assembleCore_setcolor_eq_none_iff {idx r g b : Nat} :
    assembleCore (.setcolor idx r g b) = none ↔ 65535 < idx ∨ 255 < r ∨ 255 < g ∨ 255 < b := by
  by_cases h : idx ≤ 65535 ∧ r ≤ 255 ∧ g ≤ 255 ∧ b ≤ 255
  · rw [assembleCore_setcolor_of_le h, iff_false_left (Option.some_ne_none _)]
    omega
  · rw [assembleCore_setcolor_of_not_le h, iff_true_left rfl]
    omega

/-- The number of a SET_COLOR word, its operands in their fields (R71). -/
theorem toNat_encode_setColor {idx r g b : Nat} (h : idx ≤ 65535 ∧ r ≤ 255 ∧ g ≤ 255 ∧ b ≤ 255) :
    (encode (.setColor idx (BitVec.ofNat 8 r) (BitVec.ofNat 8 g) (BitVec.ofNat 8 b))).toNat =
      0x01 * 2 ^ 56 + idx * 2 ^ 32 + r * 2 ^ 16 + g * 2 ^ 8 + b := by
  obtain ⟨hidx, hr, hg, hb⟩ := h
  rw [encode, toNat_cmdWord]
  simp only [BitVec.toNat_ofNat]
  omega

theorem toNat_assembleCore_setcolor {idx r g b : Nat} {w : Word}
    (hw : assembleCore (.setcolor idx r g b) = some w) :
    w.toNat = 0x01 * 2 ^ 56 + idx * 2 ^ 32 + r * 2 ^ 16 + g * 2 ^ 8 + b := by
  by_cases h : idx ≤ 65535 ∧ r ≤ 255 ∧ g ≤ 255 ∧ b ≤ 255
  · obtain rfl := Option.some.inj ((assembleCore_setcolor_of_le h).symm.trans hw)
    exact toNat_encode_setColor h
  · cases (assembleCore_setcolor_of_not_le h).symm.trans hw

/-- Settles O48: by the range test of `setcolor` and of `.word`, and the fields of a SET_COLOR word. -/
theorem assemblerWords : Obligations.AssemblerWords := by
  refine ⟨fun idx r g b => assembleCore_setcolor_eq_none_iff,
    fun idx r g b w => toNat_assembleCore_setcolor, by decide, by decide, by decide,
    fun v hv => if_pos hv, fun v hv => if_neg hv.not_gt⟩

/-! ### Pseudo-instructions -/

theorem assembleCores_cons {l : CoreLine} {ls : List CoreLine} {w : Word} {ws : List Word}
    (h : assembleCore l = some w) (hs : assembleCores ls = some ws) :
    assembleCores (l :: ls) = some (w :: ws) := by
  simp only [assembleCores, h, hs]

theorem assembleCores_append {ls ls' : List CoreLine} {ws ws' : List Word}
    (h : assembleCores ls = some ws) (h' : assembleCores ls' = some ws') :
    assembleCores (ls ++ ls') = some (ws ++ ws') := by
  induction ls generalizing ws with
  | nil =>
    obtain rfl := Option.some.inj h
    exact h'
  | cons l ls ih =>
    simp only [assembleCores] at h
    split at h
    next w vs hl hls =>
      obtain rfl := Option.some.inj h
      exact assembleCores_cons hl (ih hls)
    next => cases h

/-- The line `setcolor` of a well-formed command assembles to the command's word. -/
theorem assembleCore_setcolor_toNat {i : Nat} {r g b : Byte} (h : i < 65536) :
    assembleCore (.setcolor i r.toNat g.toNat b.toNat) = some (encode (.setColor i r g b)) := by
  rw [assembleCore_setcolor_of_le ⟨by omega, by omega, by omega, by omega⟩]
  simp only [BitVec.ofNat_toNat, BitVec.setWidth_eq]

theorem assembleCores_setcolors {r g b : Byte} {is : List Nat} (h : ∀ i ∈ is, i < 65536) :
    assembleCores (is.map fun i => .setcolor i r.toNat g.toNat b.toNat) =
      some (is.map fun i => encode (.setColor i r g b)) := by
  induction is with
  | nil => rfl
  | cons i is ih =>
    obtain ⟨hi, his⟩ := List.forall_mem_cons.mp h
    exact assembleCores_cons (assembleCore_setcolor_toNat hi) (ih his)

theorem assembleCores_fillLines {N : Nat} {r g b : Byte} (h : N ≤ 65536) :
    assembleCores (fillLines N r.toNat g.toNat b.toNat) =
      some ((List.range N).map fun i => encode (.setColor i r g b)) :=
  assembleCores_setcolors fun _ hi => (List.mem_range.mp hi).trans_le h

/-- Settles O49: each expansion is assembled line by line, and every index of a strip fits its field. -/
theorem pseudoInstructionsExpand : Obligations.PseudoInstructionsExpand := by
  intro N r g b hN fill
  have hfill : assembleCores (fillLines N r.toNat g.toNat b.toNat) = some fill :=
    assembleCores_fillLines hN
  refine ⟨rfl, hfill, assembleCores_append hfill rfl, fun i hi => ?_⟩
  exact assembleCores_cons (assembleCore_setcolor_toNat hi) rfl

end Sys2Proof.Machine
end

section
/-! PROOFS. Runs of SET_COLOR words offered one a cycle (20_memory.md R58, 30_encoding.md R81). -/

namespace Sys2Proof.Machine

/-! ### The colour stored in several LEDs -/

/-- The LEDs of a list take one colour, one after the other. -/
def State.paintLeds (r g b : Byte) : List Nat → State → State
  | [], s => s
  | i :: is, s => State.paintLeds r g b is (s.storeLed i r g b)

section PaintLeds

variable (r g b : Byte)

theorem paintLeds_frame (is : List Nat) (s : State) :
    s.paintLeds r g b is = { s with FB := (s.paintLeds r g b is).FB } := by
  induction is generalizing s with
  | nil => rfl
  | cons i is ih => exact ih (s.storeLed i r g b)

/-- A byte of none of the LEDs keeps its value. -/
theorem paintLeds_read_other {is : List Nat} {a : Nat} (s : State)
    (h : ∀ i ∈ is, ¬ (3 * i ≤ a ∧ a < 3 * i + 3)) : (s.paintLeds r g b is).FB.read a = s.FB.read a := by
  induction is generalizing s with
  | nil => rfl
  | cons i is ih =>
    obtain ⟨hi, his⟩ := List.forall_mem_cons.mp h
    exact (ih (s.storeLed i r g b) his).trans (not_imp_comm.mp storeLed_changed hi)

/-- Each of the LEDs has the colour: the last store to it wrote it, and the later ones are to other LEDs. -/
theorem paintLeds_read_led {is : List Nat} {i : Nat} {s : State} (hs : s.FB.wf = true) (h : i ∈ is) :
    (s.paintLeds r g b is).FB.read (greenOffset i) = g ∧
      (s.paintLeds r g b is).FB.read (redOffset i) = r ∧
      (s.paintLeds r g b is).FB.read (blueOffset i) = b := by
  induction is generalizing s with
  | nil => cases h
  | cons j is ih =>
    by_cases hi : i ∈ is
    · exact ih (storeLed_wf hs) hi
    · obtain rfl : i = j := (List.mem_cons.mp h).resolve_right hi
      have hother {a : Nat} (ha : 3 * i ≤ a ∧ a < 3 * i + 3) :
          (s.paintLeds r g b (i :: is)).FB.read a = (s.storeLed i r g b).FB.read a := by
        refine paintLeds_read_other r g b (s.storeLed i r g b) fun k hk hka => ?_
        obtain rfl : k = i := by omega
        exact hi hk
      obtain ⟨hg, hr, hb⟩ := storeLed_read_led (i := i) (r := r) (g := g) (b := b) hs
      refine ⟨(hother ?_).trans hg, (hother ?_).trans hr, (hother ?_).trans hb⟩ <;>
        simp only [greenOffset, redOffset, blueOffset] <;> omega

end PaintLeds

/-! ### The words of the LEDs -/

/-- A SET_COLOR word in range, offered in IDLE, is accepted and stores its colour. -/
theorem step_setColor {s : State} {i : Nat} {r g b : Byte} (hs : s.st = .idle)
    (hin : s.input = ⟨false, true, encode (.setColor i r g b)⟩) (hfield : i < 65536) (hi : i < s.cfg.N) :
    step s = .next (s.advance.storeLed i r g b) := by
  have hd : decode s.input.cmdData = some (.setColor i r g b) := by
    rw [hin]
    exact decode_encode (decide_eq_true hfield)
  rw [step_of_accepted (accepted_iff.mpr ⟨by rw [hin], hs, by rw [hin]⟩), runWord_of_legal hd]
  exact exec_setColor_of_lt hi

/-- From IDLE the words of the LEDs are accepted one a cycle, each in the IDLE state that the one before it
leaves. -/
theorem cycles_setColors {r g b : Byte} {l : List Nat} {s : State} {is : List Input} (hs : s.st = .idle)
    (hfield : s.cfg.N ≤ 65536) (hl : ∀ i ∈ l, i < s.cfg.N)
    (hin : s.inputs = (l.map fun i => ⟨false, true, encode (.setColor i r g b)⟩) ++ is) :
    cycles l.length s = .next (State.paintLeds r g b l { s with inputs := is }) := by
  induction l generalizing s with
  | nil =>
    obtain rfl : s.inputs = is := hin
    rfl
  | cons i l ih =>
    obtain ⟨hi, hl⟩ := List.forall_mem_cons.mp hl
    have hstep : step s = .next (s.advance.storeLed i r g b) :=
      step_setColor hs (by rw [State.input, hin]; rfl) (by omega) hi
    rw [List.length_cons, cycles_succ hstep]
    exact ih hs hfield hl (congrArg List.tail hin)

/-- Settles O50: the words of `fill` are those of the LEDs `0` to `N - 1`, whose bytes are the offsets below
`3·N`. -/
theorem fillPaintsEveryLed : Obligations.FillPaintsEveryLed := by
  intro s r g b is hwf hFB hs hin
  obtain ⟨-, hN, -⟩ := hwf
  have hrun := cycles_setColors hs hN (fun i hi => List.mem_range.mp hi) hin
  rw [List.length_range, paintLeds_frame] at hrun
  refine ⟨_, hrun, fun i hi => paintLeds_read_led r g b hFB (List.mem_range.mpr hi), fun a ha => ?_⟩
  refine paintLeds_read_other r g b _ fun i hi hia => ?_
  have hiN : i < s.cfg.N := List.mem_range.mp hi
  omega

end Sys2Proof.Machine
end

section
/-! PROOFS. The accepted commands SET_COLOR and CLEAR, and a stored colour on its way to the line
(40_frame_buffer.md R100 to R105, 95_test_vectors.md S1). -/

namespace Sys2Proof.Machine

/-! ### An accepted command -/

theorem step_of_decode {s : State} {i : Instr} (ha : s.accepted = true)
    (hd : decode s.input.cmdData = some i) : step s = exec i s.advance :=
  (step_of_accepted ha).trans (runWord_of_legal hd)

/-- Settles O7: an accepting cycle runs its word, and a legal word runs its command. -/
theorem stepRunsTheDecodedCommand : Obligations.StepRunsTheDecodedCommand :=
  fun _ _ => step_of_decode

/-! ### SET_COLOR -/

/-- Every byte after a stored colour: the LED's three in wire order, the others as before (R101). -/
theorem storeLed_read {s : State} {i : Nat} {r g b : Byte} (h : s.FB.wf = true) (a : Nat) :
    (s.storeLed i r g b).FB.read a =
      if a = 3 * i + 0 then g else if a = 3 * i + 1 then r else if a = 3 * i + 2 then b
      else s.FB.read a := by
  obtain ⟨hgreen, hred, hblue⟩ := storeLed_read_led (i := i) (r := r) (g := g) (b := b) h
  split_ifs with h0 h1 h2
  · exact h0 ▸ hgreen
  · exact h1 ▸ hred
  · exact h2 ▸ hblue
  · exact storeLed_read_other h0 h1 h2

/-- Settles O13: in range the answer is the stored LED, whose bytes are read back one by one; out of range it
is the state itself. -/
theorem setColorStoresWireOrder : Obligations.SetColorStoresWireOrder := by
  refine ⟨fun s i r g b hFB hi => ?_, fun s i r g b => exec_setColor_of_not_lt⟩
  obtain ⟨hgreen, hred, hblue⟩ := storeLed_read_led (i := i) (r := r) (g := g) (b := b) hFB
  exact ⟨(s.storeLed i r g b).FB, exec_setColor_of_lt hi, hgreen, hred, hblue,
    fun a => storeLed_read_other⟩

/-- Settles O14: out of range SET_COLOR answers its own state, so the accepting cycle only uses up its
inputs; and OP 0x01 with a non-zero reserved field is one of the three kinds of illegal words. -/
theorem outOfRangeSetColorIsIgnored : Obligations.OutOfRangeSetColorIsIgnored := by
  refine ⟨fun s i r g b ha hd hi => ?_, fun w hop hrsv => ?_⟩
  · exact ⟨exec_setColor_of_not_lt hi.not_gt,
      (step_of_decode ha hd).trans (exec_setColor_of_not_lt (s := s.advance) hi.not_gt)⟩
  · exact decode_eq_none_iff.mpr (.inr (.inl ⟨hop, hrsv⟩))

/-! ### CLEAR -/

/-- A frame start shows in the flags: BUSY and TX, not GAPF (R103, R121). -/
theorem startFrame_flags (b0 : Byte) (s : State) : (startFrame b0 s).BUSY = true ∧
    (startFrame b0 s).TX = true ∧ (startFrame b0 s).GAPF = false := by
  simp [GAPF_false_iff]

/-- Settles O16: the answer of CLEAR is a frame start over the empty sparse list, which reads as zeros. -/
theorem clearZeroesAndStartsAFrame : Obligations.ClearZeroesAndStartsAFrame := by
  refine ⟨fun s => ⟨[], Memory.read_nil, exec_clear s⟩, fun s t ht => ?_, fun s ha => ?_⟩
  · obtain rfl := Host.Outcome.next.inj ((exec_clear s).symm.trans ht)
    obtain ⟨hbusy, htx, hgapf⟩ := startFrame_flags 0x00#8 s.zeroFB
    exact ⟨hbusy, htx, hgapf, rfl⟩
  · obtain ⟨-, hs, -⟩ := accepted_iff.mp ha
    exact hs

/-! ### A stored colour on the line -/

/-- The line in cycle `c` of bit `j` of a frame that carries `F` (R142). -/
theorem cycles_frame_line {s : State} {F : Memory} (hc : s.cfg.wf) (h : s.startsFrame F)
    (hn : s.noReset (s.cfg.D_FRAME + 1)) {j c : Nat} (hj : j < 24 * s.cfg.N) (hcyc : c < s.cfg.T_BIT) :
    ∃ t, cycles (1 + j * s.cfg.T_BIT + c) s = .next t ∧
      t.line = decide (c < s.cfg.TH (frameBit F j)) := by
  obtain ⟨b, hstep, hfirst, hcfg, -, hnb, hF, -⟩ := cycles_frame hc h hn
  have hbit : frameBit b.FB j = frameBit F j := by rw [frameBit, frameBit, hF]
  have hle : j * s.cfg.T_BIT + c ≤ s.cfg.D_FRAME := by
    have hend : (j + 1) * s.cfg.T_BIT ≤ 24 * s.cfg.N * s.cfg.T_BIT := Nat.mul_le_mul_right _ hj
    rw [Nat.succ_mul] at hend
    rw [Config.D_FRAME]
    omega
  rw [← hcfg] at hj hcyc hle hnb ⊢
  refine ⟨bitPos b j c, ?_, hbit ▸ bitPos_line hfirst.st⟩
  rw [Nat.add_assoc, Nat.add_comm 1, cycles_succ hstep]
  exact cycles_bitPos hfirst hj hcyc (noReset_mono hle hnb)

/-- A SHOW word offered in IDLE starts a frame that carries FB. -/
theorem startsFrame_of_show {s : State} (hs : s.st = .idle)
    (hin : s.input = ⟨false, true, encode .showFrame⟩) : s.startsFrame s.FB := by
  refine ⟨accepted_iff.mpr ⟨by rw [hin], hs, by rw [hin]⟩, .inl ⟨?_, rfl⟩⟩
  rw [hin]
  exact decode_encode rfl

/-- Settles O39: the SET_COLOR leaves IDLE with the colour stored, the SHOW in the next cycle starts a frame
that carries that buffer, and the line shows each of its bits. -/
theorem paintedLedReachesTheLine : Obligations.PaintedLedReachesTheLine := by
  intro s i r g b is hwf hFB hs hi hin hn j c hj hc byte
  have hN : s.cfg.N ≤ 65536 := hwf.2.1
  have hstore : step s = .next (s.advance.storeLed i r g b) :=
    step_setColor hs (by rw [State.input, hin]; rfl) (by omega) hi
  have hshow : (s.advance.storeLed i r g b).startsFrame (s.advance.storeLed i r g b).FB :=
    startsFrame_of_show hs (by rw [State.input, storeLed_inputs, advance_inputs, hin]; rfl)
  have hbit : frameBit (s.advance.storeLed i r g b).FB j = byte.getLsbD (7 - j % 8) :=
    congrArg (·.getLsbD (7 - j % 8)) (storeLed_read (s := s.advance) hFB (j / 8))
  obtain ⟨t, ht, hline⟩ :=
    cycles_frame_line (s := s.advance.storeLed i r g b) hwf hshow (noReset_succ.mp hn).2 hj hc
  have hcount : 2 + j * s.cfg.T_BIT + c = 1 + j * s.cfg.T_BIT + c + 1 := by omega
  rw [hcount, cycles_succ hstore]
  exact ⟨t, ht, hbit ▸ hline⟩

end Sys2Proof.Machine
end

section
/-! PROOFS. The line and the pin as functions of the state (41_protocol_encoder.md R122, R134, R139,
R140). -/

namespace Sys2Proof.Machine

/-- Settles O29: outside SEND the line is 0, and in SEND it compares `tcnt` with the width of `sh[7]`. -/
theorem lineIsActiveOnlyInTheActivePhase : Obligations.LineIsActiveOnlyInTheActivePhase :=
  ⟨fun _ => line_of_send, fun _ hs => line_of_not_send (by simp [hs]), fun _ => line_of_not_send,
    fun _ _ => rfl⟩

theorem dout_of_reset {s : State} (h : s.input.rst = true) : s.dout = s.cfg.INV := by
  simp [State.dout, h]

theorem dout_of_line_false {s : State} (h : s.line = false) : s.dout = s.cfg.INV := by
  simp [State.dout, h]

theorem dout_of_not_reset {s : State} (h : s.input.rst = false) : s.dout = (s.line ^^ s.cfg.INV) := by
  simp [State.dout, h]

/-- Settles O30: the pin by the cases of `rst` and of the line. -/
theorem pinFollowsLineAndPolarity : Obligations.PinFollowsLineAndPolarity := by
  refine ⟨fun s => rfl, fun s => dout_of_reset, fun s => dout_of_line_false, fun s hr hl => ?_⟩
  rw [dout_of_not_reset hr, hl, Bool.true_xor]

end Sys2Proof.Machine
end

section
/-! PROOFS. The start of a frame (41_protocol_encoder.md R120, R121). -/

namespace Sys2Proof.Machine

theorem fbSize_pos {c : Config} (h : c.wf) : 0 < c.fbSize := by
  have hN : 1 ≤ c.N := h.1
  rw [Config.fbSize]
  omega

/-- Settles O17: on a legal build FB[0] exists, and the answer of SHOW is a frame start with it. -/
theorem showStartsAFrame : Obligations.ShowStartsAFrame := by
  refine ⟨fun s hc => exec_showFrame_of_pos (fbSize_pos hc), fun s t ht => ?_, fun s ha => ?_⟩
  · by_cases h0 : 0 < s.cfg.fbSize
    · obtain rfl := Host.Outcome.next.inj ((exec_showFrame_of_pos h0).symm.trans ht)
      obtain ⟨hbusy, htx, hgapf⟩ := startFrame_flags (s.FB.read 0) s
      exact ⟨hbusy, htx, hgapf, rfl, rfl⟩
    · cases (exec_showFrame_of_not_pos h0).symm.trans ht
  · obtain ⟨-, hs, -⟩ := accepted_iff.mp ha
    exact hs

/-- The first SEND cycle of a frame that carries `F`, whatever inputs `is` the host drives after the word
that starts it: a buffer with the bytes of `F`, and the serializer at its first byte (R121). -/
theorem step_startsFrame_eq {s : State} {F : Memory} (hc : s.cfg.wf) (h : s.startsFrame F) :
    ∃ m : Memory, (∀ a, m.read a = F.read a) ∧ ∀ is,
      step { s with inputs := s.input :: is } =
        .next (startFrame (F.read 0) { s with FB := m, inputs := is }) := by
  obtain ⟨ha, ⟨hd, rfl⟩ | ⟨hd, hz⟩⟩ := h
  · exact ⟨s.FB, fun _ => rfl, fun is =>
      (step_of_decode (s := { s with inputs := s.input :: is }) ha hd).trans
        (exec_showFrame_of_pos (fbSize_pos hc))⟩
  · refine ⟨[], fun a => (hz a).symm, fun is => ?_⟩
    rw [hz]
    exact step_of_decode (s := { s with inputs := s.input :: is }) ha hd

/-- Settles O18: the step is a frame start with byte 0, whose first cycle has `tcnt` 0 and `sh[7]` bit 7. -/
theorem frameStartPutsTheFirstBitOnTheLine : Obligations.FrameStartPutsTheFirstBitOnTheLine := by
  intro s F hc h
  obtain ⟨m, -, hstep⟩ := step_startsFrame_eq hc h
  exact ⟨_, hstep s.inputs.tail, rfl, rfl, rfl, rfl, rfl, line_of_send rfl⟩

end Sys2Proof.Machine
end

section
/-! PROOFS. The steps of the serializer, and one bit period on the line (41_protocol_encoder.md R123 to R127,
R131). -/

namespace Sys2Proof.Machine

/-! ### The SEND step -/

section SendStep

variable {s : State} (hend : ¬ s.tcnt < s.cfg.T_BIT - 1)

include hend

theorem sendStep_bit (hbit : 0#3 < s.bitn) : sendStep s = .next (nextBit s) := by
  rw [sendStep, if_neg hend, if_pos hbit]

theorem sendStep_byte (hbit : ¬ 0#3 < s.bitn) (hbyte : s.ptr < s.cfg.fbSize - 1) :
    sendStep s = .next (nextByte (s.FB.read (s.ptr + 1)) s) := by
  rw [sendStep, if_neg hend, if_neg hbit, if_pos hbyte]
  exact readFB_of_lt (by omega)

theorem sendStep_last (hbit : ¬ 0#3 < s.bitn) (hbyte : ¬ s.ptr < s.cfg.fbSize - 1) :
    sendStep s = .next (endSend s) := by
  rw [sendStep, if_neg hend, if_neg hbit, if_neg hbyte]

end SendStep

/-- `sh <- {sh[6:0], 0}` (R124). -/
theorem shiftLeft_one_eq_append (x : Byte) : x <<< 1 = x.extractLsb' 0 7 ++ 0#1 :=
  BitVec.shiftLeft_eq_concat_of_lt (by decide)

theorem not_zero_lt_of_toNat {n : BitVec 3} (h : n.toNat = 0) : ¬ 0#3 < n := by
  simp [BitVec.lt_def, h]

/-- Settles O26: the four branches of the serializer's step, in its order. -/
theorem sendStepCases : Obligations.SendStepCases := by
  intro s hs hr
  rw [step_send hr hs]
  refine ⟨sendStep_mid (s := s.advance), fun hend hbit => ?_, fun hend hbit hbyte => ?_,
    fun hend hbit hbyte => ?_⟩
  · refine ⟨_, sendStep_bit (s := s.advance) hend (BitVec.lt_def.mpr hbit), ?_, ?_⟩
    · rw [← shiftLeft_one_eq_append]
      rfl
    · have hlt := s.bitn.isLt
      simp only [nextBit_bitn, advance_bitn]
      bv_omega
  · exact sendStep_byte (s := s.advance) hend (not_zero_lt_of_toNat hbit) hbyte
  · exact sendStep_last (s := s.advance) hend (not_zero_lt_of_toNat hbit) hbyte

/-! ### One bit period -/

theorem TH_pos {c : Config} (h : c.wf) (b : Bool) : 1 ≤ c.TH b := by
  obtain ⟨-, -, -, h0, h1, -⟩ := h
  cases b with
  | false => exact h0
  | true => exact h0.trans h1.le

theorem TH_le {c : Config} (h : c.wf) (b : Bool) : c.TH b ≤ c.T_H1 := by
  obtain ⟨-, -, -, -, h1, -⟩ := h
  cases b with
  | false => exact h1.le
  | true => exact le_rfl

theorem TH_lt {c : Config} (h : c.wf) (b : Bool) : c.TH b < c.T_BIT := by
  have ⟨_, _, _, _, _, h1, _⟩ := h
  exact (TH_le h b).trans_lt h1

/-- `i` cycles after `s` within a bit period (R123). -/
theorem cycles_bit {s : State} (hs : s.st = .send) {i : Nat} (hi : s.tcnt + i < s.cfg.T_BIT)
    (hn : s.noReset i) :
    cycles i s = .next { s with tcnt := s.tcnt + i, inputs := s.inputs.drop i } := by
  induction i with
  | zero => rfl
  | succ i ih =>
    rw [cycles_succ_last (ih (by omega) (noReset_mono (by omega) hn)),
      step_send (s := { s with tcnt := s.tcnt + i, inputs := s.inputs.drop i })
        (input_of_noReset hn rfl) hs,
      sendStep_mid (show s.tcnt + i < s.cfg.T_BIT - 1 by omega)]
    simp only [nextCycle, State.advance, List.tail_drop, Nat.add_assoc]

/-- Cycle `c` of a bit period that starts in this cycle (R131). -/
theorem cycles_bit_line {s : State} (hs : s.st = .send) (ht : s.tcnt = 0) {c : Nat}
    (hc : c < s.cfg.T_BIT) (hn : s.noReset c) :
    ∃ t, cycles c s = .next t ∧ t.line = decide (c < s.cfg.TH s.curBit) := by
  have hrun := cycles_bit hs (i := c) (by omega) hn
  rw [ht, Nat.zero_add] at hrun
  exact ⟨_, hrun, line_of_send hs⟩

/-- Settles O31: `tcnt` counts the cycles of the bit period, and both widths lie strictly inside it. -/
theorem bitPeriodWaveform : Obligations.BitPeriodWaveform := by
  refine ⟨fun s hwf hs ht hn => ⟨fun c hc => ?_, TH_pos hwf _, TH_lt hwf _⟩, ?_⟩
  · exact cycles_bit_line hs ht hc (noReset_mono (by omega) hn)
  · norm_num [Config.seconds, Config.defaults]

end Sys2Proof.Machine
end

section
/-! PROOFS. The reset-gap timer and IDLE (41_protocol_encoder.md R135, R136, R138). -/

namespace Sys2Proof.Machine

/-- A gap entered in this cycle: GAP for `T_RESET` cycles, `tcnt` counting them, and then IDLE. -/
theorem cycles_gap_entered {s : State} (hc : s.cfg.wf) (hs : s.st = .gap) (ht : s.tcnt = 0)
    (hn : s.noReset s.cfg.T_RESET) :
    (∀ n, n < s.cfg.T_RESET → ∃ t, cycles n s = .next t ∧ t.st = .gap ∧ t.tcnt = n) ∧
    ∃ t, cycles s.cfg.T_RESET s = .next t ∧ t.st = .idle := by
  have hR : s.cfg.T_RESET - 1 + 1 = s.cfg.T_RESET := Nat.sub_add_cancel hc.2.2.2.2.2.2
  refine ⟨fun n hlt => ?_, ?_⟩
  · exact ⟨gapPos s n, cycles_gap hs (by omega) (noReset_mono hlt.le hn), hs, by simp [gapPos, ht]⟩
  · have hend := cycles_gap_end hs (i := s.cfg.T_RESET - 1) (by omega) (by rwa [hR])
    rw [hR] at hend
    exact ⟨_, hend, rfl⟩

/-- Settles O27: the two branches of the gap timer's step, and its count from 0. -/
theorem gapLastsExactlyTReset : Obligations.GapLastsExactlyTReset := by
  refine ⟨fun s hs hr => ⟨cmdReady_false_of_busy (by simp [hs]), fun hmid => ?_, fun hend => ?_⟩,
    fun s hc hs ht hn => ?_⟩
  · rw [step_gap hr hs, gapStep_mid (s := s.advance) hmid]
    rfl
  · rw [step_gap hr hs, gapStep_end (s := s.advance) hend.not_lt]
    rfl
  · obtain ⟨hgap, t, hrun, hidle⟩ := cycles_gap_entered hc hs ht hn
    exact ⟨hgap, t, hrun, hidle, fun hr => cmdReady_iff.mpr ⟨hidle, hr⟩⟩

theorem noWord_succ {s : State} {n : Nat} :
    s.noWord (n + 1) ↔ s.input.cmdValid = false ∧ s.advance.noWord n := by
  unfold State.noWord State.input State.advance
  cases s.inputs with
  | nil => simp [Input.quiet]
  | cons i is => simp

/-- Settles O28: by induction on the cycles, each a quiet one, which leaves every register as it is. -/
theorem idleWaitsForEver : Obligations.IdleWaitsForEver := by
  refine fun s hs => ⟨line_of_not_send (by simp [hs]), fun n => ?_⟩
  induction n generalizing s with
  | zero => exact fun _ _ => rfl
  | succ n ih =>
    intro hn hw
    obtain ⟨hr, hn⟩ := noReset_succ.mp hn
    obtain ⟨hv, hw⟩ := noWord_succ.mp hw
    have hstep : step s = .next s.advance := cycle_quiet hr hs hv
    rw [cycles_succ hstep, ih s.advance hs hn hw, advance_inputs, List.drop_tail]
    rfl

end Sys2Proof.Machine
end

section
/-! PROOFS. The cycles of a frame: its timeline, its waveform, and what the host cannot change
(41_protocol_encoder.md R128, R132, R133, R137, R141 to R143). -/

namespace Sys2Proof.Machine

/-! ### The build and the inputs along a run -/

theorem sendStep_cfg_inputs {s t : State} (ht : sendStep s = .next t) :
    t.cfg = s.cfg ∧ t.inputs = s.inputs := by
  rcases sendStep_cases s with ⟨-, e⟩ | ⟨-, -, e⟩ | ⟨-, -, -, e⟩ | ⟨-, -, -, e⟩ <;>
    obtain rfl := Host.Outcome.next.inj (e.symm.trans ht) <;> exact ⟨rfl, rfl⟩

theorem gapStep_cfg_inputs (s : State) : (gapStep s).cfg = s.cfg ∧ (gapStep s).inputs = s.inputs := by
  rcases gapStep_cases s with ⟨-, e⟩ | ⟨-, e⟩ <;> rw [e] <;> exact ⟨rfl, rfl⟩

theorem runWord_cfg_inputs {w : Word} {s t : State} (ht : runWord w s = .next t) :
    t.cfg = s.cfg ∧ t.inputs = s.inputs := by
  rcases runWord_cases ht with ⟨-, rfl⟩ | ⟨-, rfl⟩ | ⟨i, r, g, b, -, ⟨-, rfl⟩ | ⟨-, rfl⟩⟩ | ⟨-, rfl⟩ |
    ⟨-, -, rfl⟩ <;> exact ⟨rfl, rfl⟩

theorem step_cfg_inputs {s t : State} (ht : step s = .next t) :
    t.cfg = s.cfg ∧ t.inputs = s.inputs.tail := by
  rcases cycle_cases ht with ⟨-, rfl⟩ | ⟨-, -, -, rfl⟩ | ⟨-, -, -, hw⟩ | ⟨-, -, hsend⟩ | ⟨-, -, rfl⟩
  · exact ⟨rfl, rfl⟩
  · exact ⟨rfl, rfl⟩
  · exact runWord_cfg_inputs hw
  · exact sendStep_cfg_inputs hsend
  · exact gapStep_cfg_inputs s.advance

theorem cycles_cfg {n : Nat} {s t : State} (ht : cycles n s = .next t) : t.cfg = s.cfg :=
  cycles_induction (P := fun u => u.cfg = s.cfg)
    (fun _ _ hu hstep => (step_cfg_inputs hstep).1.trans hu) rfl ht

theorem cycles_inputs {n : Nat} {s t : State} (ht : cycles n s = .next t) :
    t.inputs = s.inputs.drop n := by
  induction n generalizing s with
  | zero =>
    obtain rfl : s = t := by simpa using ht
    rfl
  | succ n ih =>
    cases hu : step s with
    | next u =>
      rw [cycles_succ hu] at ht
      rw [ih ht, (step_cfg_inputs hu).2, List.drop_tail]
    | fault r => simp [cycles, hu] at ht
    | refused r => simp [cycles, hu] at ht

/-- The pin follows the line in every cycle of a run without reset. -/
theorem cycles_dout {s t : State} {n : Nat} (hn : s.noReset (n + 1)) (ht : cycles n s = .next t) :
    t.dout = (t.line ^^ s.cfg.INV) := by
  rw [dout_of_not_reset (input_of_noReset hn (cycles_inputs ht)), cycles_cfg ht]

theorem cycles_dout_of_line_false {s t : State} {n : Nat} (ht : cycles n s = .next t)
    (h : t.line = false) : t.dout = s.cfg.INV := by
  rw [dout_of_line_false h, cycles_cfg ht]

/-! ### The timeline -/

theorem D_FRAME_eq (c : Config) : c.D_FRAME = c.sendLen + c.T_RESET := rfl

theorem startsFrame_st {s : State} {F : Memory} (h : s.startsFrame F) : s.st = .idle := by
  obtain ⟨-, hs, -⟩ := accepted_iff.mp h.1
  exact hs

section Frame

variable {s : State} {F : Memory} (hc : s.cfg.wf) (h : s.startsFrame F)
  (hn : s.noReset (s.cfg.D_FRAME + 1))

include hc h hn

theorem cycles_frame_send {n : Nat} (hpos : 1 ≤ n) (hle : n ≤ s.cfg.sendLen) :
    ∃ t, cycles n s = .next t ∧ t.st = .send := by
  obtain ⟨b, -, hb, -, -, -, -, hsend, -, -⟩ := cycles_frame hc h hn
  obtain ⟨m, rfl⟩ := Nat.exists_eq_add_of_le' hpos
  exact ⟨_, hsend m hle, hb.st⟩

theorem cycles_frame_gap {n : Nat} (hgt : s.cfg.sendLen < n) (hle : n ≤ s.cfg.D_FRAME) :
    ∃ t, cycles n s = .next t ∧ t.st = .gap := by
  obtain ⟨b, -, -, -, -, -, -, -, hgap, -⟩ := cycles_frame hc h hn
  obtain ⟨i, rfl⟩ := Nat.exists_eq_add_of_le hgt
  rw [D_FRAME_eq] at hle
  rw [Nat.succ_add]
  exact ⟨_, hgap i (by omega), rfl⟩

theorem cycles_frame_idle : ∃ t, cycles (s.cfg.D_FRAME + 1) s = .next t ∧ t.st = .idle := by
  obtain ⟨b, -, -, -, -, -, -, -, -, hidle⟩ := cycles_frame hc h hn
  exact ⟨_, hidle, rfl⟩

theorem cycles_frame_busy {n : Nat} (hpos : 1 ≤ n) (hle : n ≤ s.cfg.D_FRAME) :
    ∃ t, cycles n s = .next t ∧ t.st ≠ .idle := by
  by_cases hsend : n ≤ s.cfg.sendLen
  · obtain ⟨t, ht, hst⟩ := cycles_frame_send hc h hn hpos hsend
    exact ⟨t, ht, by simp [hst]⟩
  · obtain ⟨t, ht, hst⟩ := cycles_frame_gap hc h hn (Nat.lt_of_not_le hsend) hle
    exact ⟨t, ht, by simp [hst]⟩

/-- From the end of the last bit to the first IDLE cycle the line is 0. -/
theorem cycles_frame_line_after {n : Nat} (hgt : s.cfg.sendLen < n) (hle : n ≤ s.cfg.D_FRAME + 1) :
    ∃ t, cycles n s = .next t ∧ t.line = false := by
  by_cases hgap : n ≤ s.cfg.D_FRAME
  · obtain ⟨t, ht, hst⟩ := cycles_frame_gap hc h hn hgt hgap
    exact ⟨t, ht, line_of_not_send (by simp [hst])⟩
  · obtain rfl : n = s.cfg.D_FRAME + 1 := by omega
    obtain ⟨t, ht, hst⟩ := cycles_frame_idle hc h hn
    exact ⟨t, ht, line_of_not_send (by simp [hst])⟩

/-- In the idle phase of the last bit the line is 0. -/
theorem cycles_frame_line_last_bit {n : Nat}
    (hgt : s.cfg.sendLen < n + (s.cfg.T_BIT - s.cfg.T_H1)) (hle : n ≤ s.cfg.sendLen) :
    ∃ t, cycles n s = .next t ∧ t.line = false := by
  have ⟨hN, _, _, _, _, hH1, _⟩ := hc
  have hlast : s.cfg.sendLen = (24 * s.cfg.N - 1) * s.cfg.T_BIT + s.cfg.T_BIT := by
    rw [← Nat.succ_mul, Nat.succ_eq_add_one, Nat.sub_add_cancel (by omega), Config.sendLen]
  obtain ⟨c, rfl⟩ : ∃ c, n = 1 + (24 * s.cfg.N - 1) * s.cfg.T_BIT + c :=
    Nat.exists_eq_add_of_le (by omega)
  obtain ⟨t, ht, hline⟩ :=
    cycles_frame_line hc h hn (j := 24 * s.cfg.N - 1) (c := c) (by omega) (by omega)
  have hTH := TH_le hc (frameBit F (24 * s.cfg.N - 1))
  exact ⟨t, ht, hline.trans (decide_eq_false (by omega))⟩

end Frame

section Flags

variable {s : State}

theorem flags_of_idle (h : s.st = .idle) : s.BUSY = false ∧ s.TX = false ∧ s.GAPF = false := by
  simp [BUSY_false_iff, TX_false_iff, GAPF_false_iff, h]

theorem flags_of_send (h : s.st = .send) :
    s.BUSY = true ∧ s.TX = true ∧ s.GAPF = false ∧ s.cmdReady = false := by
  simp [GAPF_false_iff, cmdReady_false_iff, h]

theorem flags_of_gap (h : s.st = .gap) :
    s.BUSY = true ∧ s.TX = false ∧ s.GAPF = true ∧ s.cmdReady = false := by
  simp [TX_false_iff, cmdReady_false_iff, h]

end Flags

/-- Settles O32: the FSM state in each part of the frame, and the flags it shows. -/
theorem frameTimeline : Obligations.FrameTimeline := by
  refine ⟨fun s F hc h hn => ⟨?_, fun n hpos hle => ?_, fun n hgt hle => ?_, ?_⟩, rfl, ?_⟩
  · have hidle := startsFrame_st h
    obtain ⟨hbusy, htx, hgapf⟩ := flags_of_idle hidle
    exact ⟨hidle, hbusy, htx, hgapf, cmdReady_iff.mpr ⟨hidle, (noReset_succ.mp hn).1⟩⟩
  · obtain ⟨t, ht, hsend⟩ := cycles_frame_send hc h hn hpos hle
    exact ⟨t, ht, hsend, flags_of_send hsend⟩
  · obtain ⟨t, ht, hgap⟩ := cycles_frame_gap hc h hn hgt hle
    exact ⟨t, ht, hgap, flags_of_gap hgap⟩
  · obtain ⟨t, ht, hidle⟩ := cycles_frame_idle hc h hn
    obtain ⟨hbusy, htx, hgapf⟩ := flags_of_idle hidle
    exact ⟨t, ht, hidle, hbusy, htx, hgapf, fun hr => cmdReady_iff.mpr ⟨hidle, hr⟩⟩
  · norm_num [Config.seconds, Config.defaults]

/-! ### The waveform -/

theorem lt_sendLen {c : Config} {j i : Nat} (hj : j < 24 * c.N) (hi : i < c.T_BIT) :
    j * c.T_BIT + i < c.sendLen :=
  calc j * c.T_BIT + i < (j + 1) * c.T_BIT := by rw [Nat.succ_mul]; omega
    _ ≤ c.sendLen := Nat.mul_le_mul_right _ hj

/-- Settles O33: the line of each bit's cycles and of the gap, and the pin that follows it. -/
theorem frameWaveform : Obligations.FrameWaveform := by
  refine ⟨fun j => by omega, fun s F hc h hn => ⟨fun j c hj hcyc => ?_, fun n hgt hle => ?_⟩⟩
  · obtain ⟨t, ht, hline⟩ := cycles_frame_line hc h hn hj hcyc
    have hlen := lt_sendLen hj hcyc
    have hdout := cycles_dout (noReset_mono (by rw [D_FRAME_eq]; omega) hn) ht
    exact ⟨t, ht, hline, hline ▸ hdout⟩
  · obtain ⟨t, ht, hline⟩ := cycles_frame_line_after hc h hn hgt (Nat.le_succ_of_le hle)
    exact ⟨t, ht, hline, cycles_dout_of_line_false ht hline⟩

/-- After a reset cycle the line is 0 through the gap and its first IDLE cycle. -/
theorem cycles_reset_line {s : State} (hc : s.cfg.wf) (hr : s.input.rst = true)
    (hn : s.advance.noReset s.cfg.T_RESET) {n : Nat} (hle : n ≤ s.cfg.T_RESET) :
    ∃ t, cycles (n + 1) s = .next t ∧ t.line = false := by
  have hreset : step s = .next (resetEdge s.advance) := cycle_reset hr
  obtain ⟨hgap, hidle⟩ := cycles_gap_entered (s := resetEdge s.advance) hc rfl rfl hn
  rw [cycles_succ hreset]
  rcases Nat.lt_or_eq_of_le hle with hlt | rfl
  · obtain ⟨t, ht, hst, -⟩ := hgap n hlt
    exact ⟨t, ht, line_of_not_send (by simp [hst])⟩
  · obtain ⟨t, ht, hst⟩ := hidle
    exact ⟨t, ht, line_of_not_send (by simp [hst])⟩

/-- Settles O35: the idle phase of the last bit, the gap and the first IDLE cycle follow one another. -/
theorem lineIsIdleBetweenFrames : Obligations.LineIsIdleBetweenFrames := by
  refine ⟨fun s F hc h hn n hgt hle => ?_, fun s hc hr hn n hpos hle => ?_⟩
  · by_cases hsend : n ≤ s.cfg.sendLen
    · rw [D_FRAME_eq] at hgt
      exact cycles_frame_line_last_bit hc h hn (by omega) hsend
    · exact cycles_frame_line_after hc h hn (Nat.lt_of_not_le hsend) hle
  · obtain ⟨m, rfl⟩ := Nat.exists_eq_add_of_le' hpos
    exact cycles_reset_line hc hr hn (Nat.le_of_succ_le_succ hle)

/-! ### What the host cannot change -/

/-- Two hosts that agree in the cycle that starts a frame, and drive no reset, see the same registers after
each of its cycles. -/
theorem cycles_frame_congr {s : State} {F : Memory} {is : List Input} (hc : s.cfg.wf)
    (h : s.startsFrame F) (hn : s.noReset (s.cfg.D_FRAME + 1))
    (hn' : ({ s with inputs := s.input :: is } : State).noReset (s.cfg.D_FRAME + 1)) {m : Nat}
    (hm : m ≤ s.cfg.D_FRAME) :
    ∃ t t', cycles (m + 1) s = .next t ∧ cycles (m + 1) { s with inputs := s.input :: is } = .next t' ∧
      { t' with inputs := t.inputs } = t := by
  obtain ⟨M, -, hstart⟩ := step_startsFrame_eq hc h
  obtain ⟨b, hb, -, -, -, -, -, hsend, hgap, hidle⟩ := cycles_frame hc h hn
  obtain ⟨b', hb', -, -, -, -, -, hsend', hgap', hidle'⟩ :=
    cycles_frame (s := { s with inputs := s.input :: is }) hc h hn'
  obtain rfl := Host.Outcome.next.inj ((hstart s.inputs.tail).symm.trans hb)
  obtain rfl := Host.Outcome.next.inj ((hstart is).symm.trans hb')
  rw [D_FRAME_eq] at hm
  by_cases hm1 : m < s.cfg.sendLen
  · exact ⟨_, _, hsend m hm1, hsend' m hm1, rfl⟩
  obtain ⟨i, rfl⟩ := Nat.exists_eq_add_of_le (Nat.le_of_not_lt hm1)
  rcases Nat.lt_or_eq_of_le (Nat.le_of_add_le_add_left hm) with hi | rfl
  · exact ⟨_, _, hgap i hi, hgap' i hi, rfl⟩
  · exact ⟨_, _, hidle, hidle', rfl⟩

/-- Settles O37: the cycles of a frame read nothing that is offered, and a reset in SEND enters GAP. -/
theorem nothingButResetDisturbsAFrame : Obligations.NothingButResetDisturbsAFrame := by
  refine ⟨fun s F is hc h hn hn' n hle => ?_, fun s _ hr => ⟨_, cycle_reset hr, rfl⟩⟩
  cases n with
  | zero => exact ⟨_, _, rfl, rfl, rfl⟩
  | succ m => exact cycles_frame_congr hc h hn hn' (Nat.le_of_succ_le_succ hle)

/-! ### The frame period -/

theorem accepted_false_of_busy {s : State} (h : s.st ≠ .idle) : s.accepted = false := by
  simp [State.accepted, cmdReady_false_of_busy h]

/-- SHOW or CLEAR is offered, without reset. -/
def Input.offersFrame (i : Input) : Prop :=
  i.rst = false ∧ i.cmdValid = true ∧
    (decode i.cmdData = some .showFrame ∨ decode i.cmdData = some .clear)

theorem startsFrame_of_offersFrame {s : State} (hs : s.st = .idle) (h : s.input.offersFrame) :
    ∃ F, s.startsFrame F := by
  obtain ⟨hr, hv, hd⟩ := h
  have ha : s.accepted = true := accepted_iff.mpr ⟨hv, hs, hr⟩
  rcases hd with hshow | hclear
  · exact ⟨s.FB, ha, .inl ⟨hshow, rfl⟩⟩
  · exact ⟨[], ha, .inr ⟨hclear, Memory.read_nil⟩⟩

theorem input_mem {s : State} (h : 0 < s.inputs.length) : s.input ∈ s.inputs := by
  obtain ⟨i, is, hcons⟩ := List.exists_cons_of_length_pos h
  simp [State.input, hcons]

/-- A host that offers a frame in every cycle, from IDLE: the frame that starts in cycle 0 takes all the
cycles before `D_FRAME + 1`, where the block is again in IDLE with such a host. -/
theorem accepted_iff_period {s : State} (hc : s.cfg.wf) (hs : s.st = .idle)
    (hin : ∀ i ∈ s.inputs, i.offersFrame) {n : Nat} (hlt : n < s.inputs.length) :
    ∃ t, cycles n s = .next t ∧ (t.accepted = true ↔ n % (s.cfg.D_FRAME + 1) = 0) := by
  induction n using Nat.strong_induction_on generalizing s with
  | _ n ih =>
    obtain ⟨F, hF⟩ := startsFrame_of_offersFrame hs (hin _ (input_mem (by omega)))
    have hn : s.noReset (s.cfg.D_FRAME + 1) := fun i hi => (hin i (List.mem_of_mem_take hi)).1
    rcases Nat.lt_or_ge n (s.cfg.D_FRAME + 1) with hshort | hlong
    · rw [Nat.mod_eq_of_lt hshort]
      rcases Nat.eq_zero_or_pos n with rfl | hpos
      · exact ⟨s, rfl, iff_of_true hF.1 rfl⟩
      · obtain ⟨t, ht, hbusy⟩ := cycles_frame_busy hc hF hn hpos (Nat.le_of_lt_succ hshort)
        exact ⟨t, ht, iff_of_false (by simp [accepted_false_of_busy hbusy]) hpos.ne'⟩
    · obtain ⟨u, hu, hidle⟩ := cycles_frame_idle hc hF hn
      obtain ⟨m, rfl⟩ := Nat.exists_eq_add_of_le hlong
      have hinputs := cycles_inputs hu
      have hcfg := cycles_cfg hu
      rw [cycles_add hu, Nat.add_mod_left, ← hcfg]
      refine ih m (by omega) (hcfg ▸ hc) hidle (fun i hi => hin i ?_) ?_
      · exact List.mem_of_mem_drop (hinputs ▸ hi)
      · rw [hinputs, List.length_drop]
        omega

/-- Settles O38: a frame keeps the block busy to its last GAP cycle, so it fixes the cycle of the next. -/
theorem framesRepeatEveryFramePeriod : Obligations.FramesRepeatEveryFramePeriod := by
  refine ⟨fun s hc hs hin n hlt => accepted_iff_period hc hs hin hlt,
    fun s F hc h hn n hpos hlt => ?_, rfl, ?_⟩
  · obtain ⟨t, ht, hbusy⟩ := cycles_frame_busy hc h hn hpos (Nat.le_of_lt_succ hlt)
    exact ⟨t, ht, fun G hG => hbusy (startsFrame_st hG)⟩
  · norm_num [Config.seconds, Config.defaults]

end Sys2Proof.Machine
end

section
/-! PROOFS. The runs of 1s of a frame's waveform, and the bits read off them (41_protocol_encoder.md
R144). -/

namespace Sys2Proof.Machine

/-! ### The runs of a waveform made of pulses -/

/-- A bit period of `T` cycles with a pulse of `w` (R122). -/
def pulse (T w : Nat) : List Bool := List.replicate w true ++ List.replicate (T - w) false

theorem runLengthsFrom_ones (k n : Nat) (l : List Bool) :
    runLengthsFrom n (List.replicate k true ++ l) = runLengthsFrom (n + k) l := by
  induction k generalizing n with
  | zero => rfl
  | succ k ih =>
    rw [List.replicate_succ, List.cons_append, runLengthsFrom, ih, Nat.add_right_comm, Nat.add_assoc]

theorem runLengthsFrom_false_of_pos {n : Nat} (h : 0 < n) (l : List Bool) :
    runLengthsFrom n (false :: l) = n :: runLengths l := by
  rw [runLengthsFrom, if_neg h.ne', runLengths]

theorem runLengths_zeros (k : Nat) (l : List Bool) :
    runLengths (List.replicate k false ++ l) = runLengths l := by
  induction k with
  | zero => rfl
  | succ k ih => exact ih

/-- A pulse with both phases non-empty is a run of its own, whatever follows. -/
theorem runLengths_pulse {T w : Nat} (hpos : 1 ≤ w) (hlt : w < T) (l : List Bool) :
    runLengths (pulse T w ++ l) = w :: runLengths l := by
  obtain ⟨k, hk⟩ := Nat.exists_eq_add_of_le' (Nat.sub_pos_of_lt hlt)
  rw [runLengths, pulse, List.append_assoc, runLengthsFrom_ones, Nat.zero_add, hk, List.replicate_succ,
    List.cons_append, runLengthsFrom_false_of_pos hpos, runLengths_zeros]

theorem runLengths_pulses {T : Nat} {ws : List Nat} (h : ∀ w ∈ ws, 1 ≤ w ∧ w < T) (k : Nat) :
    runLengths (ws.flatMap (pulse T) ++ List.replicate k false) = ws := by
  induction ws with
  | nil =>
    have hzeros := runLengths_zeros k []
    rwa [List.append_nil] at hzeros
  | cons w ws ih =>
    obtain ⟨⟨hpos, hlt⟩, hws⟩ := List.forall_mem_cons.mp h
    rw [List.flatMap_cons, List.append_assoc, runLengths_pulse hpos hlt, ih hws]

/-! ### The waveform of a frame is made of pulses -/

theorem lineTrace_succ {n : Nat} {s t : State} (h : step s = .next t) :
    lineTrace (n + 1) s = s.line :: lineTrace n t := by
  simp [lineTrace, h]

/-- The waveform of `m + n` cycles is that of `m` and then that of `n`. -/
theorem lineTrace_add {m n : Nat} {s t : State} (h : cycles m s = .next t) :
    lineTrace (m + n) s = lineTrace m s ++ lineTrace n t := by
  induction m generalizing s with
  | zero =>
    obtain rfl : s = t := by simpa using h
    rw [Nat.zero_add]
    rfl
  | succ m ih =>
    rw [Nat.succ_add]
    cases hs : step s with
    | next u =>
      rw [cycles_succ hs] at h
      rw [lineTrace_succ hs, lineTrace_succ hs, ih h, List.cons_append]
    | fault r => simp [cycles, hs] at h
    | refused r => simp [cycles, hs] at h

theorem lineTrace_one (s : State) : lineTrace 1 s = [s.line] := by
  rw [lineTrace]
  cases step s <;> rfl

/-- A waveform given cycle by cycle. -/
theorem lineTrace_eq_map {f : Nat → Bool} {n : Nat} {s : State}
    (h : ∀ i, i < n → ∃ t, cycles i s = .next t ∧ t.line = f i) :
    lineTrace n s = (List.range n).map f := by
  induction n with
  | zero => rfl
  | succ n ih =>
    obtain ⟨t, ht, hline⟩ := h n (Nat.lt_succ_self n)
    rw [lineTrace_add ht, lineTrace_one, hline, ih fun i hi => h i (Nat.lt_succ_of_lt hi),
      List.range_succ, List.map_append, List.map_singleton]

theorem map_decide_lt_range {T w : Nat} (h : w ≤ T) :
    ((List.range T).map fun c => decide (c < w)) = pulse T w := by
  obtain ⟨k, rfl⟩ := Nat.exists_eq_add_of_le h
  rw [pulse, Nat.add_sub_cancel_left, List.range_add, List.map_append]
  congr 1 <;> simp [List.eq_replicate_iff]

/-- The waveform of a whole bit period. -/
theorem lineTrace_bit {s : State} (hc : s.cfg.wf) (hs : s.st = .send) (ht : s.tcnt = 0)
    (hn : s.noReset s.cfg.T_BIT) :
    lineTrace s.cfg.T_BIT s = pulse s.cfg.T_BIT (s.cfg.TH s.curBit) := by
  rw [← map_decide_lt_range (TH_lt hc _).le]
  exact lineTrace_eq_map fun c hlt => cycles_bit_line hs ht hlt (noReset_mono hlt.le hn)

/-- The waveform of a gap entered in this cycle. -/
theorem lineTrace_gap {s : State} (hc : s.cfg.wf) (hs : s.st = .gap) (ht : s.tcnt = 0)
    (hn : s.noReset s.cfg.T_RESET) :
    lineTrace s.cfg.T_RESET s = List.replicate s.cfg.T_RESET false := by
  rw [lineTrace_eq_map (f := fun _ => false), List.map_const', List.length_range]
  intro i hi
  obtain ⟨t, hrun, hst, -⟩ := (cycles_gap_entered hc hs ht hn).1 i hi
  exact ⟨t, hrun, line_of_not_send (by simp [hst])⟩

/-- What is left of a run without reset after its first `m` cycles. -/
theorem noReset_drop {s t : State} {m n : Nat} (hn : s.noReset (m + n))
    (ht : t.inputs = s.inputs.drop m) : t.noReset n := by
  intro i hi
  rw [ht] at hi
  refine hn i ?_
  rw [List.take_add]
  exact List.mem_append_right _ hi

section Frame

variable {b : State} (hb : FirstCycle b) (hc : b.cfg.wf)

include hb hc

/-- The waveform of the first `k` bits of the frame whose first SEND cycle is `b`. -/
theorem lineTrace_bits {k : Nat} (hk : k ≤ 24 * b.cfg.N) (hn : b.noReset (k * b.cfg.T_BIT)) :
    lineTrace (k * b.cfg.T_BIT) b =
      ((List.range k).map fun j => b.cfg.TH (frameBit b.FB j)).flatMap (pulse b.cfg.T_BIT) := by
  induction k with
  | zero => rw [Nat.zero_mul]; rfl
  | succ k ih =>
    rw [Nat.succ_mul] at hn ⊢
    have hT : 0 < b.cfg.T_BIT := (Nat.zero_le _).trans_lt (TH_lt hc false)
    have hn0 : b.noReset (k * b.cfg.T_BIT) := noReset_mono (Nat.le_add_right _ _) hn
    have hpos : cycles (k * b.cfg.T_BIT) b = .next (bitPos b k 0) := cycles_bitPos hb hk hT hn0
    have hbit := lineTrace_bit (s := bitPos b k 0) hc hb.st rfl (noReset_drop hn (cycles_inputs hpos))
    rw [bitPos_curBit] at hbit
    rw [lineTrace_add hpos, ih (Nat.le_of_succ_le hk) hn0, List.range_succ, List.map_append,
      List.flatMap_append, List.map_singleton, List.flatMap_singleton]
    exact congrArg _ hbit

/-- The waveform of a frame: one pulse per bit, and then the gap (R142). -/
theorem lineTrace_frame (hn : b.noReset b.cfg.D_FRAME) :
    lineTrace b.cfg.D_FRAME b =
      ((List.range (24 * b.cfg.N)).map fun j => b.cfg.TH (frameBit b.FB j)).flatMap
        (pulse b.cfg.T_BIT) ++ List.replicate b.cfg.T_RESET false := by
  rw [D_FRAME_eq] at hn ⊢
  have hn0 : b.noReset b.cfg.sendLen := noReset_mono (Nat.le_add_right _ _) hn
  have hstart := cycles_gapStart hb hc hn0
  have hgap := lineTrace_gap (s := gapStart b) hc rfl rfl (noReset_drop hn (cycles_inputs hstart))
  rw [lineTrace_add hstart]
  exact congrArg₂ _ (lineTrace_bits hb hc le_rfl hn0) hgap

end Frame

theorem TH_beq_T_H1 {c : Config} (h : c.wf) (b : Bool) : (c.TH b == c.T_H1) = b := by
  have ⟨_, _, _, _, hlt, _⟩ := h
  cases b with
  | false => simpa [Config.TH] using hlt.ne
  | true => simp [Config.TH]

/-- Settles O34: the waveform of a frame is one pulse per bit, each a run of its own, and the two widths
differ. -/
theorem frameBitsAreRecoveredFromTheLine : Obligations.FrameBitsAreRecoveredFromTheLine := by
  intro s F hc h hn
  obtain ⟨b, hstep, hb, hcfg, -, hnb, hF, -⟩ := cycles_frame hc h hn
  have hbit (j : Nat) : frameBit b.FB j = frameBit F j := by rw [frameBit, frameBit, hF]
  rw [← hcfg] at hc hnb ⊢
  have hruns : runLengths (lineTrace b.cfg.D_FRAME b) =
      (List.range (24 * b.cfg.N)).map fun j => b.cfg.TH (frameBit F j) := by
    rw [lineTrace_frame hb hc hnb, runLengths_pulses]
    · simp only [hbit]
    · exact List.forall_mem_map.mpr fun j _ => ⟨TH_pos hc _, TH_lt hc _⟩
  refine ⟨b, hstep, hruns, ?_⟩
  rw [recoverBits, hruns, List.map_map]
  exact List.map_congr_left fun j _ => TH_beq_T_H1 hc _

end Sys2Proof.Machine
end

section
/-! PROOFS. The control command NOP and the accepted illegal word (42_control.md R160, R161,
60_exceptions.md R171). -/

namespace Sys2Proof.Machine

/-! ### NOP -/

theorem exec_nop (s : State) : exec .nop s = .next s := rfl

/-- The all-zero word is NOP (R160). -/
theorem decode_zero : decode 0#64 = some .nop := decode_eq_nop_iff.mpr BitVec.zero_and

/-- Settles O12: NOP answers its own state; a word is accepted only in IDLE, and the all-zero word runs NOP,
so its cycle only uses up its inputs. -/
theorem nopChangesNothing : Obligations.NopChangesNothing := by
  refine ⟨exec_nop, fun s ha hw => ?_⟩
  obtain ⟨-, hs, -⟩ := accepted_iff.mp ha
  have hd : decode s.input.cmdData = some .nop := hw ▸ decode_zero
  exact ⟨hs, (step_of_decode ha hd).trans (exec_nop s.advance)⟩

/-! ### The illegal word -/

/-- STATUS shows a raised IllegalCommand in bit 3 (R33, R171). -/
theorem status_raiseIllegalCommand (s : State) :
    (raiseIllegalCommand s).status.getLsbD 3 = true := by
  obtain ⟨-, -, -, hill⟩ := status_flags (raiseIllegalCommand s)
  exact hill.trans (raiseIllegalCommand_ILL s)

/-- Without a reset, a cycle that accepts no word leaves ILL as it is. -/
theorem step_ILL_of_not_accepted {s t : State} (hr : s.input.rst = false) (ha : s.accepted = false)
    (ht : step s = .next t) : t.ILL = s.ILL := by
  simpa [hr, ha] using step_ILL_iff ht

/-- The word of a SET_COLOR with any 16-bit index is legal (R102, R171). -/
theorem decode_encode_setColor_ne_none {i : Nat} {r g b : Byte} (hi : i < 65536) :
    decode (encode (.setColor i r g b)) ≠ none := by
  have hwf : (Instr.setColor i r g b).wf = true := decide_eq_true hi
  simp [decode_encode hwf]

/-- Settles O20: an accepted illegal word raises IllegalCommand alone; outside IDLE no word is accepted, and
then ILL stays; and a well-formed SET_COLOR is decoded from its word. -/
theorem illegalCommandOnlySetsIll : Obligations.IllegalCommandOnlySetsIll := by
  obtain ⟨-, hstep⟩ := illegalWordsAreOfThreeKinds
  refine ⟨fun s ha hd => ⟨hstep s ha hd, status_raiseIllegalCommand s.advance⟩,
    fun s t hs hr _ ht => ?_, fun i r g b => decode_encode_setColor_ne_none⟩
  have ha := accepted_false_of_busy hs
  exact ⟨ha, step_ILL_of_not_accepted hr ha ht⟩

end Sys2Proof.Machine
end

section
/-! PROOFS. ILL is sticky, and nothing the block does depends on it (60_exceptions.md R178). -/

namespace Sys2Proof.Machine

/-! ### ILL = 1 is inert: each operation from states that differ in ILL only -/

theorem exec_withILL {i : Instr} {s t : State} (b : Bool) (ht : exec i s = .next t) :
    exec i { s with ILL := b } = .next { t with ILL := b } := by
  cases i with
  | nop =>
    obtain rfl := Host.Outcome.next.inj ((exec_nop s).symm.trans ht)
    exact exec_nop _
  | setColor idx r g c =>
    by_cases hi : idx < s.cfg.N
    · obtain rfl := Host.Outcome.next.inj ((exec_setColor_of_lt hi).symm.trans ht)
      exact exec_setColor_of_lt hi
    · obtain rfl := Host.Outcome.next.inj ((exec_setColor_of_not_lt hi).symm.trans ht)
      exact exec_setColor_of_not_lt hi
  | clear =>
    obtain rfl := Host.Outcome.next.inj ((exec_clear s).symm.trans ht)
    exact exec_clear _
  | showFrame =>
    by_cases h0 : 0 < s.cfg.fbSize
    · obtain rfl := Host.Outcome.next.inj ((exec_showFrame_of_pos h0).symm.trans ht)
      exact exec_showFrame_of_pos h0
    · cases (exec_showFrame_of_not_pos h0).symm.trans ht

/-- A legal word keeps the difference; an illegal one ends it, since it puts ILL = 1 in both states. -/
theorem runWord_withILL {w : Word} {s t : State} (b : Bool) (ht : runWord w s = .next t) :
    ∃ c : Bool, runWord w { s with ILL := b } = .next { t with ILL := c } := by
  cases hd : decode w with
  | none =>
    obtain rfl := Host.Outcome.next.inj ((runWord_of_illegal hd).symm.trans ht)
    exact ⟨true, runWord_of_illegal hd⟩
  | some i =>
    rw [runWord_of_legal hd] at ht
    exact ⟨b, (runWord_of_legal hd).trans (exec_withILL b ht)⟩

theorem sendStep_withILL {s t : State} (b : Bool) (ht : sendStep s = .next t) :
    sendStep { s with ILL := b } = .next { t with ILL := b } := by
  rcases sendStep_cases s with ⟨hmid, e⟩ | ⟨hend, hbit, e⟩ | ⟨hend, hbit, hbyte, e⟩ |
    ⟨hend, hbit, hlast, e⟩ <;> obtain rfl := Host.Outcome.next.inj (e.symm.trans ht)
  · exact sendStep_mid (s := { s with ILL := b }) hmid
  · exact sendStep_bit (s := { s with ILL := b }) hend hbit
  · exact sendStep_byte (s := { s with ILL := b }) hend (by simp [hbit]) hbyte
  · exact sendStep_last (s := { s with ILL := b }) hend (by simp [hbit]) hlast

theorem gapStep_withILL (s : State) (b : Bool) :
    gapStep { s with ILL := b } = { gapStep s with ILL := b } := by
  rcases gapStep_cases s with ⟨hmid, e⟩ | ⟨hend, e⟩ <;> rw [e]
  · exact gapStep_mid (s := { s with ILL := b }) hmid
  · exact gapStep_end (s := { s with ILL := b }) hend

theorem cycle_withILL {inp : Input} {s t : State} (b : Bool) (ht : cycle inp s = .next t) :
    ∃ c : Bool, cycle inp { s with ILL := b } = .next { t with ILL := c } := by
  rcases cycle_cases ht with ⟨hr, rfl⟩ | ⟨hr, hs, hv, rfl⟩ | ⟨hr, hs, hv, hw⟩ | ⟨hr, hs, hsend⟩ |
    ⟨hr, hs, rfl⟩
  · exact ⟨false, cycle_reset hr⟩
  · exact ⟨b, cycle_quiet hr hs hv⟩
  · obtain ⟨c, hc⟩ := runWord_withILL b hw
    exact ⟨c, (cycle_word (s := { s with ILL := b }) hr hs hv).trans hc⟩
  · exact ⟨b, (cycle_send (s := { s with ILL := b }) hr hs).trans (sendStep_withILL b hsend)⟩
  · exact ⟨b, (cycle_gap (s := { s with ILL := b }) hr hs).trans (congrArg _ (gapStep_withILL s b))⟩

/-! ### ILL = 1 is sticky -/

theorem raiseIllegalCommand_of_ILL {s : State} (h : s.ILL = true) : raiseIllegalCommand s = s := by
  rw [raiseIllegalCommand, ← h]

/-- Settles O21: without reset ILL is only ever set; an illegal word raises what is raised already; and each
case of the cycle answers states that differ in ILL alike. -/
theorem illIsStickyAndInert : Obligations.IllIsStickyAndInert := by
  refine ⟨fun s t hill hr ht => (step_ILL_iff ht).mpr ⟨hr, .inl hill⟩, fun s hill ha hd => ?_,
    fun s t b ht => cycle_withILL (s := s.advance) b ht, fun i s t b => exec_withILL b⟩
  rw [step_of_accepted ha, runWord_of_illegal hd, raiseIllegalCommand_of_ILL (s := s.advance) hill]

end Sys2Proof.Machine
end

section
/-! PROOFS. The block cannot hang: the cycles left until IDLE are known in every state that meets the
invariant, and every step without reset is one of them (60_exceptions.md R186). -/

namespace Sys2Proof.Machine

/-- The bits of the frame that follow the one on the line. -/
def State.bitsAfter (s : State) : Nat := 8 * (s.cfg.fbSize - 1 - s.ptr) + s.bitn.toNat

/-- The cycles until IDLE if no reset comes (R132, R136): what is left of this bit, the bits after it and the
gap; or what is left of the gap. -/
def State.cyclesToIdle (s : State) : Nat :=
  match s.st with
  | .idle => 0
  | .send => s.bitsAfter * s.cfg.T_BIT + (s.cfg.T_BIT - s.tcnt) + s.cfg.T_RESET
  | .gap => s.cfg.T_RESET - s.tcnt

theorem cyclesToIdle_of_idle {s : State} (h : s.st = .idle) : s.cyclesToIdle = 0 := by
  rw [State.cyclesToIdle, h]

theorem cyclesToIdle_of_send {s : State} (h : s.st = .send) :
    s.cyclesToIdle = s.bitsAfter * s.cfg.T_BIT + (s.cfg.T_BIT - s.tcnt) + s.cfg.T_RESET := by
  rw [State.cyclesToIdle, h]

theorem cyclesToIdle_of_gap {s : State} (h : s.st = .gap) :
    s.cyclesToIdle = s.cfg.T_RESET - s.tcnt := by
  rw [State.cyclesToIdle, h]

/-- The frame has `24·N` bits, this one among them (R128). -/
theorem bitsAfter_lt {s : State} (hc : s.cfg.wf) : s.bitsAfter < 24 * s.cfg.N := by
  have hN : 1 ≤ s.cfg.N := hc.1
  have hbitn := s.bitn.isLt
  rw [State.bitsAfter, Config.fbSize]
  omega

theorem cyclesToIdle_le {s : State} (hc : s.cfg.wf) : s.cyclesToIdle ≤ s.cfg.D_FRAME := by
  rw [D_FRAME_eq]
  cases hs : s.st with
  | idle => simp [cyclesToIdle_of_idle hs]
  | send =>
    have hbits : (s.bitsAfter + 1) * s.cfg.T_BIT ≤ s.cfg.sendLen :=
      Nat.mul_le_mul_right _ (bitsAfter_lt hc)
    rw [Nat.succ_mul] at hbits
    rw [cyclesToIdle_of_send hs]
    omega
  | gap =>
    rw [cyclesToIdle_of_gap hs]
    omega

/-! ### A busy step is one cycle nearer to IDLE -/

theorem bitsAfter_nextBit {s : State} (hbit : 0#3 < s.bitn) :
    (nextBit s).bitsAfter + 1 = s.bitsAfter := by
  have hpred : (s.bitn - 1#3).toNat + 1 = s.bitn.toNat := by bv_omega
  rw [State.bitsAfter, State.bitsAfter, Nat.add_assoc]
  exact congrArg _ hpred

theorem bitsAfter_nextByte {s : State} (b : Byte) (hbit : s.bitn = 0#3)
    (hbyte : s.ptr < s.cfg.fbSize - 1) : (nextByte b s).bitsAfter + 1 = s.bitsAfter := by
  simp only [State.bitsAfter, nextByte_cfg, nextByte_ptr, nextByte_bitn, hbit, BitVec.toNat_ofNat]
  omega

theorem bitsAfter_last {s : State} (hbit : s.bitn = 0#3) (hlast : ¬ s.ptr < s.cfg.fbSize - 1) :
    s.bitsAfter = 0 := by
  simp only [State.bitsAfter, hbit, BitVec.toNat_ofNat]
  omega

/-- The end of a bit that is not the frame's last: the bit's last cycle is over and a whole bit period of one
bit less begins. -/
theorem cyclesToIdle_next_bit {s t : State} (hs : s.st = .send) (ht : t.st = .send) (hcfg : t.cfg = s.cfg)
    (hend : s.tcnt + 1 = s.cfg.T_BIT) (htcnt : t.tcnt = 0) (hbits : t.bitsAfter + 1 = s.bitsAfter) :
    t.cyclesToIdle + 1 = s.cyclesToIdle := by
  rw [cyclesToIdle_of_send hs, cyclesToIdle_of_send ht, ← hbits, Nat.succ_mul, hcfg, htcnt]
  omega

theorem sendStep_cyclesToIdle {s : State} (h : s.Inv) (hs : s.st = .send) :
    ∃ t, sendStep s = .next t ∧ t.cyclesToIdle + 1 = s.cyclesToIdle := by
  obtain ⟨⟨-, -, hT, -⟩, -, ⟨-, hsend, -⟩, -⟩ := h
  obtain ⟨htcnt, -, -⟩ := hsend hs
  rcases sendStep_cases s with ⟨hmid, e⟩ | ⟨hend, hbit, e⟩ | ⟨hend, hbit, hbyte, e⟩ |
    ⟨hend, hbit, hlast, e⟩ <;> refine ⟨_, e, ?_⟩
  · have hbits : (nextCycle s).bitsAfter = s.bitsAfter := rfl
    rw [cyclesToIdle_of_send hs, cyclesToIdle_of_send (s := nextCycle s) hs, hbits, nextCycle_cfg,
      nextCycle_tcnt]
    omega
  · exact cyclesToIdle_next_bit hs hs rfl (by omega) rfl (bitsAfter_nextBit hbit)
  · exact cyclesToIdle_next_bit hs hs rfl (by omega) rfl (bitsAfter_nextByte _ hbit hbyte)
  · rw [cyclesToIdle_of_send hs, bitsAfter_last hbit hlast, Nat.zero_mul,
      cyclesToIdle_of_gap (endSend_st s), endSend_cfg, endSend_tcnt]
    omega

theorem gapStep_cyclesToIdle {s : State} (h : s.Inv) (hs : s.st = .gap) :
    (gapStep s).cyclesToIdle + 1 = s.cyclesToIdle := by
  obtain ⟨⟨-, -, -, -, -, -, hR⟩, -, ⟨-, -, hgap⟩, -⟩ := h
  have htcnt := hgap hs
  rw [cyclesToIdle_of_gap hs]
  rcases gapStep_cases s with ⟨hmid, e⟩ | ⟨hend, e⟩ <;> rw [e]
  · rw [cyclesToIdle_of_gap (s := nextCycle s) hs, nextCycle_cfg, nextCycle_tcnt]
    omega
  · rw [cyclesToIdle_of_idle (endGap_st s)]
    omega

theorem step_cyclesToIdle {s : State} (h : s.Inv) (hs : s.st ≠ .idle) (hr : s.input.rst = false) :
    ∃ t, step s = .next t ∧ t.cyclesToIdle + 1 = s.cyclesToIdle := by
  cases hst : s.st with
  | idle => exact absurd hst hs
  | send =>
    rw [step_send hr hst]
    exact sendStep_cyclesToIdle (s := s.advance) (advance_inv h) hst
  | gap => exact ⟨_, step_gap hr hst, gapStep_cyclesToIdle (s := s.advance) (advance_inv h) hst⟩

/-! ### IDLE is reached -/

theorem idle_of_cyclesToIdle_eq_zero {s : State} (h : s.Inv) (h0 : s.cyclesToIdle = 0) :
    s.st = .idle := by
  obtain ⟨⟨-, -, -, -, -, -, hR⟩, -, ⟨-, -, hgap⟩, -⟩ := h
  cases hs : s.st with
  | idle => rfl
  | send =>
    rw [cyclesToIdle_of_send hs] at h0
    omega
  | gap =>
    have htcnt := hgap hs
    rw [cyclesToIdle_of_gap hs] at h0
    omega

/-- IDLE is reached in just these cycles, whatever the host offers in them. -/
theorem cycles_cyclesToIdle {n : Nat} {s : State} (h : s.Inv) (hlen : s.cyclesToIdle = n)
    (hn : s.noReset n) : ∃ t, cycles n s = .next t ∧ t.st = .idle := by
  induction n generalizing s with
  | zero => exact ⟨s, rfl, idle_of_cyclesToIdle_eq_zero h hlen⟩
  | succ n ih =>
    obtain ⟨hr, hn⟩ := noReset_succ.mp hn
    have hs : s.st ≠ .idle := fun hidle => by
      rw [cyclesToIdle_of_idle hidle] at hlen
      omega
    obtain ⟨t, hstep, hless⟩ := step_cyclesToIdle h hs hr
    rw [cycles_succ hstep]
    refine ih (stepKeepsTheInvariant s t h hstep) (by omega) ?_
    exact (noReset_congr (t := s.advance) (step_cfg_inputs hstep).2).mpr hn

/-- Settles O47: the cycles until IDLE are at most those of a whole frame, and IDLE accepts what is offered
without reset. -/
theorem idleIsReachedWithinAFrame : Obligations.IdleIsReachedWithinAFrame := by
  intro s h hn
  have hle : s.cyclesToIdle ≤ s.cfg.D_FRAME := cyclesToIdle_le h.1
  obtain ⟨t, hrun, hidle⟩ := cycles_cyclesToIdle h rfl (noReset_mono hle hn)
  exact ⟨_, t, hle, hrun, hidle, fun hr hv => accepted_iff.mpr ⟨hv, hidle, hr⟩⟩

end Sys2Proof.Machine
end

section
/-! PROOFS. Reset from every state, the entry after it, and the values it leaves (70_reset_and_hazards.md
R190, R191, R193). -/

namespace Sys2Proof.Machine

theorem step_reset {s : State} (hr : s.input.rst = true) : step s = .next (resetEdge s.advance) :=
  cycle_reset hr

/-! ### Several cycles of reset -/

/-- The host drives `rst = 1` in each of the first `n` cycles from `s` on. -/
def State.holdsReset (s : State) (n : Nat) : Prop :=
  n ≤ s.inputs.length ∧ ∀ i ∈ s.inputs.take n, i.rst = true

theorem holdsReset_succ {s : State} {n : Nat} :
    s.holdsReset (n + 1) ↔ s.input.rst = true ∧ s.advance.holdsReset n := by
  unfold State.holdsReset State.input State.advance
  cases s.inputs with
  | nil => simp [Input.quiet]
  | cons i is => simp [and_left_comm]

/-- Holding reset is the same as one reset edge: the second edge finds what the first one left, but for the
inputs used up (R190). -/
theorem cycles_holdsReset {s : State} {n : Nat} (h : s.holdsReset (n + 1)) :
    cycles (n + 1) s = .next (resetEdge { s with inputs := s.inputs.drop (n + 1) }) := by
  induction n generalizing s with
  | zero =>
    obtain ⟨hr, -⟩ := holdsReset_succ.mp h
    rw [cycles_succ (step_reset hr), cycles_zero, List.drop_one]
    rfl
  | succ n ih =>
    obtain ⟨hr, h⟩ := holdsReset_succ.mp h
    rw [cycles_succ (step_reset hr), ih (s := resetEdge s.advance) h, resetEdge_inputs, advance_inputs,
      List.drop_tail]
    rfl

theorem cmdReady_false_of_reset {s : State} (hr : s.input.rst = true) : s.cmdReady = false :=
  cmdReady_false_iff.mpr (.inl hr)

theorem accepted_false_of_reset {s : State} (hr : s.input.rst = true) : s.accepted = false := by
  rw [State.accepted, cmdReady_false_of_reset hr, Bool.and_false]

/-- Settles O40: the reset edge ignores every register, so its repetition is one edge; and `rst = 1`
alone makes `cmd_ready` 0, refuses the word and puts the pin at INV. -/
theorem resetFromEveryState : Obligations.ResetFromEveryState := by
  refine ⟨fun s k hpos hlen hrst => ?_, fun s hr => ?_⟩
  · obtain ⟨n, rfl⟩ := Nat.exists_eq_add_of_le' hpos
    exact cycles_holdsReset ⟨hlen, hrst⟩
  · exact ⟨cmdReady_false_of_reset hr, accepted_false_of_reset hr, dout_of_reset hr⟩

/-! ### The values after a reset -/

/-- Settles O41: the fields of the reset edge, and the outputs of a state in GAP. -/
theorem resetStateValues : Obligations.ResetStateValues := by
  refine ⟨?_, rfl⟩
  intro s t
  have hgap : t.st = .gap := resetEdge_st s
  have hline : t.line = false := line_of_not_send (by simp [hgap])
  exact ⟨Memory.read_nil, hgap, rfl, rfl, rfl, rfl, rfl, status_resetEdge s,
    cmdReady_false_of_busy (by simp [hgap]), dout_of_line_false hline, rfl⟩

/-! ### The entry after a reset -/

/-- Settles O42: the reset edge enters a gap, which lasts `T_RESET` cycles and ends in IDLE. -/
theorem entryAfterReset : Obligations.EntryAfterReset := by
  intro s hc hr hn
  obtain ⟨hgap, t, hrun, hidle⟩ := cycles_gap_entered (s := resetEdge s.advance) hc rfl rfl hn
  refine ⟨fun n hpos hle => ?_, t, ?_, hidle, fun hr' => cmdReady_iff.mpr ⟨hidle, hr'⟩⟩
  · obtain ⟨m, rfl⟩ := Nat.exists_eq_add_of_le' hpos
    obtain ⟨u, hu, hst, -⟩ := hgap m hle
    exact ⟨u, (cycles_succ (step_reset hr)).trans hu, hst, cmdReady_false_of_busy (by simp [hst])⟩
  · exact (cycles_succ (step_reset hr)).trans hrun

end Sys2Proof.Machine
end

section
/-! PROOFS. The strip's latch time, the commands that take no busy cycle, and the times of the default build
(70_reset_and_hazards.md R199, R202, R203). -/

namespace Sys2Proof.Machine

/-- Settles O36: the gap alone holds the line idle for `T_RESET` cycles, which last the latch time by the
integrator's choice of the build. -/
theorem frameGapMeetsTheLatchTime : Obligations.FrameGapMeetsTheLatchTime := by
  rintro s F hc ⟨latch, hlatch, hle⟩ h hn
  refine ⟨latch, s.cfg.T_RESET, hlatch, hle, fun n hgt hn' => ?_⟩
  rw [← D_FRAME_eq] at hn'
  exact cycles_frame_line_after hc h hn hgt (Nat.le_succ_of_le hn')

/-- A word that is neither CLEAR nor SHOW has an answer on every build, and leaves the FSM state. -/
theorem runWord_st_of_no_frame {w : Word} {s : State} (hclear : decode w ≠ some .clear)
    (hshow : decode w ≠ some .showFrame) : ∃ t, runWord w s = .next t ∧ t.st = s.st := by
  cases hd : decode w with
  | none => exact ⟨_, runWord_of_illegal hd, rfl⟩
  | some i =>
    rw [runWord_of_legal hd]
    cases i with
    | nop => exact ⟨_, exec_nop s, rfl⟩
    | setColor i r g b =>
      by_cases hi : i < s.cfg.N
      · exact ⟨_, exec_setColor_of_lt hi, rfl⟩
      · exact ⟨_, exec_setColor_of_not_lt hi, rfl⟩
    | clear => exact absurd hd hclear
    | showFrame => exact absurd hd hshow

theorem cmdReady_of_idle {s : State} (hs : s.st = .idle) : s.cmdReady = !s.input.rst := by
  simp [State.cmdReady, hs]

/-- Settles O19: a word is accepted in IDLE, and one that starts no frame leaves the block there. -/
theorem singleCycleCommandsLeaveIdle : Obligations.SingleCycleCommandsLeaveIdle := by
  intro s ha hclear hshow
  obtain ⟨-, hs, -⟩ := accepted_iff.mp ha
  obtain ⟨t, ht, hst⟩ := runWord_st_of_no_frame (s := s.advance) hclear hshow
  have hidle : t.st = .idle := hst.trans hs
  exact ⟨t, (step_of_accepted ha).trans ht, hidle, BUSY_false_iff.mpr hidle, cmdReady_of_idle hidle⟩

/-- The default clock runs at 16 MHz. -/
theorem seconds_defaults (n : Nat) : Config.defaults.seconds n = n / 16000000 := by
  simp [Config.seconds, Config.defaults]

/-- Settles O51: the cycle counts by evaluation, and each time as its count at 16 MHz. -/
theorem defaultTimes : Obligations.DefaultTimes := by
  refine ⟨?_, ?_, ?_, ?_, ?_, rfl, ?_, rfl, ?_, rfl, ?_, rfl, ?_⟩ <;> rw [seconds_defaults] <;>
    norm_num [Config.defaults]

end Sys2Proof.Machine
end

section
/-! PROOFS. The decoder and the encoder against each other, and the operands of SET_COLOR as bits of its word
(30_encoding.md R71, R74 to R78). -/

namespace Sys2Proof

/-- Settles O2: each field that `decode` tests or reads is the one that `encode` put there. -/
theorem decodeOfEncodeIsTheCommand : Obligations.DecodeOfEncodeIsTheCommand :=
  fun _ => decode_encode

/-- Settles O3: the tests of `decode` fix OP and the reserved fields, and a word is that of its fields. -/
theorem encodeOfDecodeIsTheWord : Obligations.EncodeOfDecodeIsTheWord :=
  fun _ _ => encode_of_decode

/-- Settles O5: a word that decodes to SET_COLOR is its command's word, and each operand is below the weight
of the field above it, so that division and remainder give it back. -/
theorem setColorFieldsAreTheSpecsBits : Obligations.SetColorFieldsAreTheSpecsBits := by
  intro w idx r g b h
  obtain ⟨hwf, rfl⟩ := decode_eq_some_iff.mp h
  have hidx : idx < 65536 := of_decide_eq_true hwf
  have hr := r.isLt
  have hg := g.isLt
  have hb := b.isLt
  rw [encode, toNat_cmdWord, BitVec.toNat_ofNat, BitVec.toNat_ofNat]
  omega

/-- Settles O1: each legal word is the word of its command, and each other word is of one of the three kinds
of R77. -/
theorem decodeReadsTheSpecsWords : Obligations.DecodeReadsTheSpecsWords := by
  refine ⟨decode_eq_some_iff.mpr ?_, decode_eq_none_iff.mpr (.inr (.inr ?_)),
    decode_eq_some_iff.mpr ?_, decode_eq_none_iff.mpr (.inr (.inl ?_)),
    decode_eq_some_iff.mpr ?_, decode_eq_none_iff.mpr (.inr (.inl ?_)),
    decode_eq_some_iff.mpr ?_, decode_eq_none_iff.mpr (.inr (.inr ?_)),
    decode_eq_some_iff.mpr ?_, decode_eq_none_iff.mpr (.inr (.inr ?_)),
    decode_eq_none_iff.mpr (.inl ?_), decode_eq_none_iff.mpr (.inl ?_)⟩ <;> decide

end Sys2Proof
end

section
/-! PROOFS. The step is total on a legal build, and keeps the build (00_scope.md R14, R31, 60_exceptions.md
R170). -/

namespace Sys2Proof.Machine

/-- Settles O11: by the cases of the cycle, none of which writes the build or the coming inputs. -/
theorem buildNeverChanges : Obligations.BuildNeverChanges :=
  fun _ _ => step_cfg_inputs

/-- Of all words only that of SHOW reads FB, and FB[0] exists on a legal build (R5, R56). -/
theorem runWord_total {s : State} (hc : s.cfg.wf) (w : Word) : ∃ t, runWord w s = .next t := by
  by_cases hclear : decode w = some .clear
  · exact ⟨_, (runWord_of_legal hclear).trans (exec_clear s)⟩
  by_cases hshow : decode w = some .showFrame
  · exact ⟨_, (runWord_of_legal hshow).trans (exec_showFrame_of_pos (fbSize_pos hc))⟩
  obtain ⟨t, ht, -⟩ := runWord_st_of_no_frame hclear hshow
  exact ⟨t, ht⟩

theorem sendStep_total (s : State) : ∃ t, sendStep s = .next t := by
  rcases sendStep_cases s with ⟨-, e⟩ | ⟨-, -, e⟩ | ⟨-, -, -, e⟩ | ⟨-, -, -, e⟩ <;> exact ⟨_, e⟩

theorem cycle_total {s : State} (hc : s.cfg.wf) (inp : Input) : ∃ t, cycle inp s = .next t := by
  cases hr : inp.rst with
  | true => exact ⟨_, cycle_reset hr⟩
  | false =>
    cases hs : s.st with
    | idle =>
      cases hv : inp.cmdValid with
      | true => exact cycle_word hr hs hv ▸ runWord_total hc inp.cmdData
      | false => exact ⟨s, cycle_quiet hr hs hv⟩
    | send => exact cycle_send hr hs ▸ sendStep_total s
    | gap => exact ⟨_, cycle_gap hr hs⟩

theorem step_total {s : State} (hc : s.cfg.wf) : ∃ t, step s = .next t :=
  cycle_total (s := s.advance) hc s.input

/-- Settles O10: by induction on the cycles; each step answers, and the build it leaves is legal again. -/
theorem everyRunGoesOn : Obligations.EveryRunGoesOn := by
  intro s n hc
  induction n generalizing s with
  | zero => exact ⟨s, cycles_zero s⟩
  | succ n ih =>
    obtain ⟨t, ht⟩ := step_total hc
    obtain ⟨hcfg, -⟩ := step_cfg_inputs ht
    rw [cycles_succ ht]
    exact ih t (hcfg ▸ hc)

end Sys2Proof.Machine
end
